-- ==== Sys2Proof/Word.lean ====
section
/-! DEFINITION. The widths of the block's values (`00_scope.md` R3 and section 5): all are
non-negative, nothing is signed. -/

namespace Sys2Proof

/-- A symbol: a 5-bit value 0..31, a field element (`SYM_BITS`, R3; R85). -/
abbrev Sym := BitVec 5

/-- One stream element: an 8-bit value 0..255 (`ELEM_BITS`, `BYTE_BITS`, R3). -/
abbrev Byte := BitVec 8

/-- The command word `CW` (`CW_BITS`, R3; R50). -/
abbrev CmdWord := BitVec 16

end Sys2Proof
end

