-- ==== Sys2Proof/Syntax.lean ====
section
/-! DEFINITION. The twelve commands of `30_encoding.md` R52, one constructor per row of
`spec/opcode_table.json`, and the pseudo-instruction of R56. -/

namespace Sys2Proof

/-- A command with its inline operands (R50, R54). Stream operands are not part of it: they travel
in `IN` (R31). -/
inductive Instr where
  /-- `CVT58`: 5-bit symbols to 8-bit bytes, discard (R71). -/
  | cvt58
  /-- `CVT58P`: 5-bit symbols to 8-bit bytes, pad (R72). -/
  | cvt58p
  /-- `CVT85`: 8-bit bytes to 5-bit symbols, discard (R73). -/
  | cvt85
  /-- `CVT85P`: 8-bit bytes to 5-bit symbols, pad (R74). -/
  | cvt85p
  /-- `GFMUL a, b`: field product (R86); `a` is `CW[4:0]`, `b` is `CW[9:5]`. -/
  | gfmul (a b : Sym)
  /-- `GFINV a`: field inverse (R88); `a` is `CW[4:0]`. -/
  | gfinv (a : Sym)
  /-- `PMODS`: residue under the short code (R101). -/
  | pmods
  /-- `PMODL`: residue under the long code (R102). -/
  | pmodl
  /-- `CKSUM`: checksum symbols of a content (R104). -/
  | cksum
  /-- `VERIFY`: whether a whole sequence carries a valid checksum (R105). -/
  | verify
  /-- `LAGW x`: Lagrange weights at the target `x`, which is `CW[4:0]` (R122). -/
  | lagw (x : Sym)
  /-- `INTERP K, x`: interpolation of `K` vectors at the target `x`; `K` is `CW[9:5]`, `x` is
  `CW[4:0]` (R123). -/
  | interp (k x : Sym)
  deriving DecidableEq, Repr

/-- `SECRET_INDEX`: the value 16 of the reserved index symbol (R3, D26). -/
def secretIndex : Sym := 16

/-- The pseudo-instruction `RECOVER K`, which is `INTERP K, 16` (R56). -/
def Instr.recover (k : Sym) : Instr := .interp k secretIndex

end Sys2Proof
end

