-- ==== Sys2Proof/WellFormed.lean ====
section
/-! DEFINITION. When a command word is legal, said as `30_encoding.md` R50 and R53 say it (by opcode,
format and reserved bits), independently of the rows the decoder matches; and when a command, as a
term, is well formed. -/

namespace Sys2Proof

/-- The four formats of R50. -/
inductive Format where
  /-- no inline operand -/
  | z
  /-- two flag bits -/
  | f
  /-- one symbol -/
  | s
  /-- two 5-bit fields -/
  | ss
  deriving DecidableEq, Repr

/-- `OPC`, bits 15 to 12 of the command word (R50). -/
def opcodeOf (w : CmdWord) : BitVec 4 := w.extractLsb' 12 4

/-- The format of each assigned opcode; `none` for the unassigned opcodes 0 and 9 to 15 (R50, R52,
R53). -/
def formatOf (opc : BitVec 4) : Option Format :=
  if opc = 1 then some .f
  else if opc = 2 then some .ss
  else if opc = 3 then some .s
  else if opc = 4 then some .f
  else if opc = 5 then some .z
  else if opc = 6 then some .z
  else if opc = 7 then some .s
  else if opc = 8 then some .ss
  else none

/-- Whether bits `hi` down to `lo` of the word are all 0. -/
def bitsZero (w : CmdWord) (hi lo : Nat) : Bool := w.extractLsb' lo (hi + 1 - lo) == 0

/-- The reserved bits of the opcode's format are 0 (R53): bits 11:10 in every format; bits 9:5 in `Z`,
`F`, `S`; bits 4:2 in `Z`, `F`; bits 1:0 in `Z`; bit 1 for opcode 4. -/
def reservedZero (w : CmdWord) : Format → Bool
  | .z => bitsZero w 11 10 && bitsZero w 9 5 && bitsZero w 4 2 && bitsZero w 1 0
  | .f => bitsZero w 11 10 && bitsZero w 9 5 && bitsZero w 4 2 &&
      (opcodeOf w != 4 || bitsZero w 1 1)
  | .s => bitsZero w 11 10 && bitsZero w 9 5
  | .ss => bitsZero w 11 10

/-- A legal command word: its opcode is assigned and every reserved bit of its format is 0 (R53). -/
def legalWord (w : CmdWord) : Bool :=
  match formatOf (opcodeOf w) with
  | none => false
  | some fmt => reservedZero w fmt

/-- A well-formed command: every inline operand is in the range its field encodes (R54). Each is a
5-bit value by its type ("an out-of-range inline symbol cannot be encoded"), so every command passes;
what can be ill formed is a command word (`legalWord`). -/
def Instr.wellFormed : Instr → Bool
  | .gfmul a b => a.toNat < 32 && b.toNat < 32
  | .gfinv a => a.toNat < 32
  | .lagw x => x.toNat < 32
  | .interp k x => k.toNat < 32 && x.toNat < 32
  | .cvt58 | .cvt58p | .cvt85 | .cvt85p | .pmods | .pmodl | .cksum | .verify => true

end Sys2Proof
end

