-- ==== Sys2Proof/Decode.lean ====
section
/-! DEFINITION. The decoder and the encoder of `30_encoding.md`: the twelve rows of R52, decoding that
is total (R51) and rejects by name (R53), and the word of each command. The command word is one 16-bit
value with bit 15 the most significant (R50, D20); it is not made of bytes (log 13). -/

namespace Sys2Proof

/-- Why a command word is illegal (R53). Both end the transaction with `IllegalCommand`. -/
inductive DecodeError where
  /-- the opcode is 0 or 9 to 15 -/
  | unassignedOpcode (opc : BitVec 4)
  /-- the opcode is assigned and a reserved bit of its format is 1 -/
  | reservedBit (w : CmdWord)
  deriving DecidableEq, Repr

/-- One row of R52: a word `w` selects it when `w & mask = pattern`; `build` makes the command from the
fields `CW[4:0]` and `CW[9:5]`. -/
structure Row where
  mask : CmdWord
  pattern : CmdWord
  build : (lo hi : Sym) → Instr

/-- Field `a` (also `x`): `CW[4:0]` (R54). -/
def fieldLo (w : CmdWord) : Sym := w.extractLsb' 0 5

/-- Field `b` (also `K`): `CW[9:5]` (R54). -/
def fieldHi (w : CmdWord) : Sym := w.extractLsb' 5 5

/-- The opcode map, in the order of R52. -/
def rows : List Row := [
  { mask := 0xFFFF, pattern := 0x1000, build := fun _ _ => .cvt58 },
  { mask := 0xFFFF, pattern := 0x1001, build := fun _ _ => .cvt58p },
  { mask := 0xFFFF, pattern := 0x1002, build := fun _ _ => .cvt85 },
  { mask := 0xFFFF, pattern := 0x1003, build := fun _ _ => .cvt85p },
  { mask := 0xFC00, pattern := 0x2000, build := fun a b => .gfmul a b },
  { mask := 0xFFE0, pattern := 0x3000, build := fun a _ => .gfinv a },
  { mask := 0xFFFF, pattern := 0x4000, build := fun _ _ => .pmods },
  { mask := 0xFFFF, pattern := 0x4001, build := fun _ _ => .pmodl },
  { mask := 0xFFFF, pattern := 0x5000, build := fun _ _ => .cksum },
  { mask := 0xFFFF, pattern := 0x6000, build := fun _ _ => .verify },
  { mask := 0xFFE0, pattern := 0x7000, build := fun x _ => .lagw x },
  { mask := 0xFC00, pattern := 0x8000, build := fun x k => .interp k x } ]

/-- A word selects a row when `w & mask = pattern` (R52). -/
def Row.selects (r : Row) (w : CmdWord) : Bool := w &&& r.mask == r.pattern

/-- The name of the illegality of a word that no row matches (R53). -/
def illegality (w : CmdWord) : DecodeError :=
  match formatOf (opcodeOf w) with
  | none => .unassignedOpcode (opcodeOf w)
  | some _ => .reservedBit w

/-- Decoding: total, a function of the word alone (R51). -/
def decode (w : CmdWord) : Except DecodeError Instr :=
  match rows.find? (·.selects w) with
  | some r => .ok (r.build (fieldLo w) (fieldHi w))
  | none => .error (illegality w)

/-- A word with a 5-bit field in bits 4:0 and one in bits 9:5 (R54). -/
def wordOf (pattern : CmdWord) (lo hi : Sym) : CmdWord :=
  pattern ||| (hi.setWidth 16 <<< 5) ||| lo.setWidth 16

/-- The command word of a command (R52, R54). -/
def encode : Instr → CmdWord
  | .cvt58 => 0x1000
  | .cvt58p => 0x1001
  | .cvt85 => 0x1002
  | .cvt85p => 0x1003
  | .gfmul a b => wordOf 0x2000 a b
  | .gfinv a => wordOf 0x3000 a 0
  | .pmods => 0x4000
  | .pmodl => 0x4001
  | .cksum => 0x5000
  | .verify => 0x6000
  | .lagw x => wordOf 0x7000 x 0
  | .interp k x => wordOf 0x8000 x k

/-- The 16-bit command word of an instruction given as the opcode table numbers its bits: the low
`nbits` bits of `w`, every bit above them 0. A value of more than 16 bits is no command word (R50:
"always 16 bits"). -/
def tableWord? (nbits w : Nat) : Option CmdWord :=
  if w % 2 ^ nbits < 2 ^ 16 then some (BitVec.ofNat 16 (w % 2 ^ nbits)) else none

/-- The instruction the decoder reads from a table word. -/
def decodeTableWord (nbits w : Nat) : Option Instr :=
  match tableWord? nbits w with
  | none => none
  | some cw =>
    match decode cw with
    | .ok i => some i
    | .error _ => none

end Sys2Proof
end

