-- ==== Sys2Proof/Machine/Registers.lean ====
section
/-! DEFINITION. The working registers of `10_state.md` R15 to R18. They exist only inside one
transaction (R10): no command reads one left by an earlier command, and the host cannot read them. -/

namespace Sys2Proof.Machine

/-- The two parameter sets of the checksum engine, "short" and "long" (R13, R14, R17). -/
inductive Code where
  | short
  | long
  deriving DecidableEq, Repr, Inhabited

/-- The working registers of the four units. -/
structure Work where
  /-- CVT `ACC`, 12 bits: the bits received and not yet emitted, oldest most significant (R15). -/
  acc : BitVec 12
  /-- CVT `NB`, 0..12: the count of bits in `ACC` (R15). -/
  nb : Fin 13
  /-- MUL `MA`, "the current `a`": 5 bits after each reduction, 6 between doubling and reduction (R16). -/
  ma : BitVec 6
  /-- MUL `MR`, "the accumulating result" (R16). -/
  mr : Sym
  /-- MUL step index, 0..4 (R16). -/
  i : Fin 5
  /-- CKS `RES`, the residue register: the low 65 bits under the short code, all 75 under the long
  (R17, C6; one container, log 8). -/
  res : BitVec 75
  /-- CKS `TOP`: the five bits shifted out before masking (R17). -/
  top : Sym
  /-- CKS mode, fixed for the whole command (R17). -/
  code : Code
  /-- LGR `XS[0..K-1]`: the x-coordinates (R18). -/
  xs : List Sym
  /-- LGR `X`: the target (R18). -/
  x : Sym
  /-- LGR running product `LN` (R18). -/
  ln : Sym
  /-- LGR running product `LM` (R18). -/
  lm : Sym
  /-- LGR `WT[0..K-1]`: the weights (R18). -/
  wt : List Sym
  /-- LGR position accumulators, one per output position (R18). -/
  accs : List Sym
  deriving DecidableEq, Repr, Inhabited

/-- Every working register 0 (short, empty). R21 leaves the values after power-on unspecified: this is
the model's choice for `State.reset` (log 2). -/
def Work.zero : Work :=
  { acc := 0, nb := 0, ma := 0, mr := 0, i := 0, res := 0, top := 0, code := .short,
    xs := [], x := 0, ln := 0, lm := 0, wt := [], accs := [] }

end Sys2Proof.Machine
end

