-- ==== Sys2Proof/Config.lean ====
section
/-! DEFINITION. What is fixed for the machine: the parameters of `00_scope.md` R3, the constant store of
`10_state.md` R11 to R14 (R22: "A model holds them as configuration, not as machine state"), and the
free values. Every unit takes the constants as an argument (D22); the machine of `Dispatch.lean` runs
with `Config.constants`. -/

namespace Sys2Proof

/-- The configuration values of D22 and D18. The widths carry R191's bounds: `GEN_S[i]`, `TARGET_S`
and `INIT` below 2^65, `GEN_L[i]` and `TARGET_L` below 2^75, `REDUCE` below 64. -/
structure Constants where
  /-- `REDUCE`, 6 bits (R11). -/
  reduce : BitVec 6
  /-- `INV[0..31]` (R12). -/
  inv : Vector Sym 32
  /-- `INIT`, of which 26 bits are significant (R13, R14). -/
  init : BitVec 65
  /-- `GEN_S[0..4]` (R13). -/
  genS : Vector (BitVec 65) 5
  /-- `TARGET_S` (R13). -/
  targetS : BitVec 65
  /-- `GEN_L[0..4]` (R14). -/
  genL : Vector (BitVec 75) 5
  /-- `TARGET_L` (R14). -/
  targetL : BitVec 75
  /-- `SHORT_MAX`: longest whole sequence of the short code (R3, R103, C1). -/
  shortMax : Nat
  /-- `LONG_MIN`: shortest whole sequence of the long code (R3, R103, C1). -/
  longMin : Nat
  /-- `SHORT_MAX_CONTENT` = `SHORT_MAX` - 13 (R3, R103). -/
  shortMaxContent : Nat
  /-- `LONG_MIN_CONTENT` = `LONG_MIN` - 15 (R3, R103). -/
  longMinContent : Nat
  deriving DecidableEq, Repr

namespace Config

/-- `FIELD_SIZE`: elements of a symbol stream are below it (R3, R43). -/
def fieldSize : Nat := 32

/-- `CK_S`: checksum symbols of the short code (R3). -/
def ckS : Nat := 13

/-- `CK_L`: checksum symbols of the long code (R3). -/
def ckL : Nat := 15

/-- `HDR_LEN`: the shortest vector `INTERP` takes (R3, R125). -/
def hdrLen : Nat := 6

/-- `IDX_POS`: position of the index symbol in a content vector (R3, R36, R120). -/
def idxPos : Nat := 5

/-- `MAX_LEN`, the largest number of elements in `IN`: OPEN, default unbounded, `none` (R3, D17, U10;
log 7). `State.issue`, `transact` and `runScript` read it; their `…Within` forms take it as an argument. -/
def maxLen : Option Nat := none

/-- The constants of R11 to R14 and the thresholds of R3. The values of `REDUCE`, `INV`, `INIT`, `GEN_*`
and `TARGET_*` are the spec's, which marks them general knowledge (log 5; the long code's, log 6). -/
def constants : Constants where
  reduce := 41
  inv := #v[0, 1, 20, 24, 10, 8, 12, 29, 5, 11, 4, 9, 6, 28, 26, 31,
            22, 18, 17, 23, 2, 25, 16, 19, 3, 21, 14, 30, 13, 7, 27, 15]
  init := 0x23181b3
  genS := #v[0x19dc500ce73fde210, 0x1bfae00def77fe529, 0x1fbd920fffe7bee52,
             0x1739640bdeee3fdad, 0x07729a039cfc75f5a]
  targetS := 0x10ce0795c2fd1e62a
  genL := #v[0x3d59d273535ea62d897, 0x7a9becb6361c6c51507, 0x543f9b7e6c38d8a2a0e,
             0x0c577eaeccf1990d13c, 0x1887f74f8dc71b10651]
  targetL := 0x43381e570bf4798ab26
  shortMax := 93
  longMin := 96
  shortMaxContent := 80
  longMinContent := 81

/-- FREE VALUE. What the working registers hold after a transaction has ended, or after a reset is
applied: "any value" (U8, R10, R21). It has no body, so nothing can be proved of it; it is applied to
`State.freeCount`, so that no two ends of a transaction need give the same values (log 3). -/
opaque leftoverRegisters : Nat → Machine.Work

end Config

end Sys2Proof
end

