-- ==== Sys2Proof/Machine/State.lean ====
section
/-! DEFINITION. The state of the block: the interface of `10_state.md` R19, the working registers of R15
to R18, and the two reason types of a step. The constants are configuration (R22). -/

namespace Sys2Proof.Machine

/-- Where the block stands between two steps (R190, R19). -/
inductive Phase where
  /-- After reset: no transaction in progress, and none has ended (R190, R21). -/
  | idle
  /-- The host has supplied `CW` and `IN`; the next step is that transaction. -/
  | issued
  /-- A transaction has ended: `ST` and `OUT` are its result, for the host to read (R32). -/
  | complete
  deriving DecidableEq, Repr

/-- The seven faults of `60_exceptions.md` R170. A block fault is a result delivered to the host, not a
stop of the machine: the transaction ends with this status and an empty `OUT` (R171). -/
inductive BlockFault where
  /-- 1: raised by the decoder, on an unassigned opcode or a set reserved bit (R53). -/
  | illegalCommand
  /-- 2: an element of a symbol stream is 32 or more (R43). -/
  | valueRange
  /-- 3: `fromBits` or more bits are left over at the end of an unpadded conversion (R70). -/
  | incompleteGroup
  /-- 4: the shape of `IN` does not fit the command (R86, R88, R125). -/
  | badFrame
  /-- 5: two x-coordinates are equal (R125). -/
  | duplicateShareIndex
  /-- 6: the target is one of the x-coordinates (R125). -/
  | targetIndexPresent
  /-- 7: `GFINV 0` (R88). -/
  | inverseOfZero
  deriving DecidableEq, Repr

/-- The status `ST`: exactly eight values (R170, U7). -/
inductive Status where
  /-- 0: no fault. -/
  | ok
  | fault (f : BlockFault)
  deriving DecidableEq, Repr

/-- The machine between two steps. -/
structure State where
  /-- Whether a transaction is in progress (R190). -/
  phase : Phase
  /-- `CW`, the command word of the current transaction (R19). -/
  cw : CmdWord
  /-- `IN`, its operand stream (R19, R31). -/
  inp : List Byte
  /-- `OUT`, the result stream of the transaction that ended last (R19, R32). -/
  out : List Byte
  /-- `ST`, the status of the transaction that ended last (R19, R170). -/
  st : Status
  /-- The working registers (R15 to R18). -/
  work : Work
  /-- The model's own field: the counter the free values are applied to (log 3). -/
  freeCount : Nat
  deriving DecidableEq, Repr

/-- What a command carries while it runs: the working registers and the pending output, "nothing
emitted is visible to the host unless the transaction ends with status `OK`" (R32). -/
structure Run where
  work : Work
  out : List Byte
  deriving DecidableEq, Repr

/-- Stops of the machine. There are none: "Every command is total" (R171), "no step is ever stuck"
(`00_scope.md` section 7), and the block's seven faults are statuses (`BlockFault`). The type is closed
and has no constructor (log 12; safe: nothing is claimed by stopping). -/
inductive Fault where
  deriving DecidableEq, Repr

/-- Commands without a meaning. -/
inductive Refusal where
  /-- Raised by an arm of `exec` whose command has no meaning yet; no arm does (safe: nothing is claimed
  of a refused command). -/
  | notModelled (mnemonic : String)
  deriving DecidableEq, Repr

/-- The machine right after reset: idle (R190), the constants being configuration. `CW`, `IN`, `OUT` and
`ST` have no value then (R21), and the phase says so; the values standing here are the model's (log 1),
as are those of the working registers (log 2) and of the counter (log 3). -/
def State.reset : State :=
  { phase := .idle, cw := 0, inp := [], out := [], st := .ok, work := Work.zero, freeCount := 0 }

end Sys2Proof.Machine
end

