-- ==== Sys2Proof/Machine/Ops.lean ====
section
/-! DEFINITION. The named operations every command shares: the start of a transaction, `emit`, the end of
a transaction with a result, and its end with a fault (the block's one exceptional event; there is no
return from it, `60_exceptions.md` R174). -/

namespace Sys2Proof.Machine

/-- What a command starts from: `OUT` empty, the working registers as the last transaction left them
(R21: each is given its initial value by the command that uses it). -/
def State.start (s : State) : Run := { work := s.work, out := [] }

/-- `emit(v)`: append to the pending output (R32). -/
def emit (v : Byte) (r : Run) : Run := { r with out := r.out ++ [v] }

/-- Emit a sequence of elements, first element first. -/
def emitAll (vs : List Byte) (r : Run) : Run := { r with out := r.out ++ vs }

/-- The end of a transaction: `ST` is written once, `OUT` is handed over, and the working registers hold
whatever they hold (U8: any value; log 3). `CW` and `IN` stay as the host left them (log 4). -/
def endTransaction (st : Status) (out : List Byte) (s : State) : State :=
  { s with
    phase := .complete
    st := st
    out := out
    work := Config.leftoverRegisters s.freeCount
    freeCount := s.freeCount + 1 }

/-- `done`: the transaction ends with `OK` and the output accumulated (R32). -/
def deliver (out : List Byte) (s : State) : State := endTransaction .ok out s

/-- `raise`: the transaction ends at once with the fault's status and an empty `OUT`, whatever had been
emitted (R32, R171). -/
def raise (f : BlockFault) (s : State) : State := endTransaction (.fault f) [] s

/-- How a command's run ends the transaction (R171: every command ends with `OK` and an `OUT`, or with one
of the faults). -/
def conclude (o : Except BlockFault Run) (s : State) : Host.Outcome State Fault Refusal :=
  match o with
  | .ok r => .next (deliver r.out s)
  | .error f => .next (raise f s)

/-- The word the next step decodes: `CW` itself; the block fetches nothing (R20, R57). -/
def fetchWord (s : State) : CmdWord := s.cw

/-- What a step does with a word that is illegal: the fault `IllegalCommand`, "before `IN` is looked at"
(R53). -/
def rejectWord (_e : DecodeError) (s : State) : State := raise .illegalCommand s

/-- What a step does when the host has issued no transaction: nothing (R190 "idle"; log 4). -/
def rest (s : State) : State := s

end Sys2Proof.Machine
end

