-- ==== Sys2Proof/Machine/Operands.lean ====
section
/-! DEFINITION. The operand forms of `20_memory.md`: an element as a symbol and back, a symbol stream with
its range check (R43), a stream that must be empty (R38), K vectors in one stream (R37) and their
x-coordinates (R120). -/

namespace Sys2Proof.Machine

/-- A symbol result as an element: bits 7 to 5 zero (R32). -/
def symToByte (v : Sym) : Byte := v.setWidth 8

/-- The symbol an element below 32 is (R31: "a symbol is the element's value itself"). -/
def byteToSym (v : Byte) : Sym := v.setWidth 5

/-- Whether an element of a symbol stream is in range (R43). -/
def symbolInRange (v : Byte) : Bool := v.toNat < Config.fieldSize

/-- Read a whole symbol stream; an element of 32 or more is `ValueRange`, wherever it stands (R43,
R172). -/
def readSymbols (inp : List Byte) : Except BlockFault (List Sym) :=
  if inp.all symbolInRange then .ok (inp.map byteToSym) else .error .valueRange

/-- Vector `j` of a stream framed in vectors of `n` symbols: `IN[j*n .. (j+1)*n)` (R37). -/
def vectorAt (n : Nat) (syms : List Sym) (j : Nat) : List Sym := (syms.drop (j * n)).take n

/-- The `k` vectors of a stream (R37). -/
def vectors (k n : Nat) (syms : List Sym) : List (List Sym) := (List.range k).map (vectorAt n syms)

/-- A vector's x-coordinate: its value at the index position (R120). -/
def xCoordinate (v : List Sym) : Sym := v.getD Config.idxPos 0

/-- The frame check of `INTERP`, made on `K` and `len(IN)` alone (R125 check 2, R172): `K` at least 1,
`IN` not empty, `K` divides `len(IN)`, and each vector has at least 6 symbols. -/
def interpFrame (k : Sym) (inp : List Byte) : Bool :=
  1 ≤ k.toNat && 1 ≤ inp.length && inp.length % k.toNat == 0 &&
    Config.hdrLen ≤ inp.length / k.toNat

/-- Whether two positions hold the same x-coordinate (R125 check 4). -/
def hasRepeat : List Sym → Bool
  | [] => false
  | x :: rest => rest.contains x || hasRepeat rest

end Sys2Proof.Machine
end

