-- ==== Sys2Proof/Machine/Checksum.lean ====
section
/-! DEFINITION. The CKS unit, `42_checksum.md`: the register step of R100 over `RES` and `TOP`, the choice of
the code by length (R103), and the commands `PMODS`, `PMODL`, `CKSUM`, `VERIFY` (R101, R102, R104,
R105). -/

namespace Sys2Proof.Machine

/-- Checksum symbols of a code: 13 or 15 (R3). -/
def ckSymbols : Code → Nat
  | .short => Config.ckS
  | .long => Config.ckL

/-- Register width `W`: 65 or 75, five bits a group (R17, R34, C6). -/
def regWidth (code : Code) : Nat := 5 * ckSymbols code

/-- Generator `i` of a code, zeros above it in the register's container (R13, R14). -/
def generator (c : Constants) (code : Code) (i : Fin 5) : BitVec 75 :=
  match code with
  | .short => (c.genS.get i).setWidth 75
  | .long => c.genL.get i

/-- The target constant of a code (R13, R14). -/
def target (c : Constants) : Code → BitVec 75
  | .short => c.targetS.setWidth 75
  | .long => c.targetL

/-- `RES <- RES ^ GEN[i]` where bit `i` of `TOP` is 1 (R100). -/
def cksFeedback (c : Constants) (w : Work) (i : Fin 5) : Work :=
  if w.top.getLsbD i.val then { w with res := w.res ^^^ generator c w.code i } else w

/-- The shift of R100: the top five bits go to `TOP`, the register moves left by 5 inside its `W` bits, and
the symbol enters bits 4..0. -/
def cksShift (s : Sym) (w : Work) : Work :=
  let width := regWidth w.code
  { w with
    top := (w.res >>> (width - 5)).setWidth 5
    res := ((w.res &&& BitVec.ofNat 75 (2 ^ (width - 5) - 1)) <<< 5) ||| s.setWidth 75 }

/-- One step of the checksum register (R100). -/
def cksStep (c : Constants) (w : Work) (s : Sym) : Work :=
  [(0 : Fin 5), 1, 2, 3, 4].foldl (cksFeedback c) (cksShift s w)

/-- `RES <- INIT` under a code (R100, R21). -/
def cksInit (c : Constants) (code : Code) (w : Work) : Work :=
  { w with code := code, res := c.init.setWidth 75 }

/-- `polymod(symbols, code)` on the registers: the residue is left in `RES` (R100). -/
def polymod (c : Constants) (code : Code) (syms : List Sym) (w : Work) : Work :=
  syms.foldl (cksStep c) (cksInit c code w)

/-- Group `g` of a residue: bits `W-1-5g` down to `W-5-5g`, most significant group first (R34). -/
def residueGroup (code : Code) (res : BitVec 75) (g : Nat) : Sym :=
  (res >>> (regWidth code - 5 - 5 * g)).setWidth 5

/-- The 13 or 15 groups of a residue (R34). -/
def residueGroups (code : Code) (res : BitVec 75) : List Sym :=
  (List.range (ckSymbols code)).map (residueGroup code res)

/-- Emit a residue as symbols (R34, R32). -/
def emitResidue (code : Code) (res : BitVec 75) (r : Run) : Run :=
  emitAll ((residueGroups code res).map symToByte) r

/-- `PMODS` and `PMODL`: the residue of the stream under a given code (R101, R102). -/
def pmodRun (c : Constants) (code : Code) (inp : List Byte) (r : Run) : Except BlockFault Run :=
  match readSymbols inp with
  | .error e => .error e
  | .ok syms =>
    let w := polymod c code syms r.work
    .ok (emitResidue code w.res { r with work := w })

/-- The code of a content of a given length: short up to `SHORT_MAX_CONTENT`, else long (R103, R104). -/
def contentCode (c : Constants) (len : Nat) : Code :=
  if len ≤ c.shortMaxContent then .short else .long

/-- The code of a whole sequence of a given length: short up to `SHORT_MAX`, long from `LONG_MIN`, none
between (R103). -/
def wholeCode (c : Constants) (len : Nat) : Option Code :=
  if len ≤ c.shortMax then some .short else if c.longMin ≤ len then some .long else none

/-- `CKSUM`: `polymod(IN ++ zeros) ^ TARGET`, unpacked (R104). -/
def cksumRun (c : Constants) (inp : List Byte) (r : Run) : Except BlockFault Run :=
  match readSymbols inp with
  | .error e => .error e
  | .ok syms =>
    let code := contentCode c syms.length
    let w := polymod c code (syms ++ List.replicate (ckSymbols code) 0) r.work
    .ok (emitResidue code (w.res ^^^ target c code) { r with work := w })

/-- `VERIFY`: 1 when the residue of the whole sequence is the target of the code its length selects,
else 0; for a length between the codes 0, and no residue is computed (R105). -/
def verifyRun (c : Constants) (inp : List Byte) (r : Run) : Except BlockFault Run :=
  match readSymbols inp with
  | .error e => .error e
  | .ok syms =>
    match wholeCode c syms.length with
    | none => .ok (emit 0 r)
    | some code =>
      let w := polymod c code syms r.work
      .ok (emit (if w.res = target c code then 1 else 0) { r with work := w })

/-- `PMODS` (R101). -/
def execPmods (s : State) : Host.Outcome State Fault Refusal :=
  conclude (pmodRun Config.constants .short s.inp s.start) s

/-- `PMODL` (R102). -/
def execPmodl (s : State) : Host.Outcome State Fault Refusal :=
  conclude (pmodRun Config.constants .long s.inp s.start) s

/-- `CKSUM` (R104). -/
def execCksum (s : State) : Host.Outcome State Fault Refusal :=
  conclude (cksumRun Config.constants s.inp s.start) s

/-- `VERIFY` (R105). -/
def execVerify (s : State) : Host.Outcome State Fault Refusal :=
  conclude (verifyRun Config.constants s.inp s.start) s

end Sys2Proof.Machine
end

