-- ==== Sys2Proof/Machine/Codec.lean ====
section
/-! DEFINITION. The CVT unit, `40_codec.md`: `convert(data, f, t, pad)` of R70 over the registers `ACC` and
`NB`, and the four commands `CVT58`, `CVT58P`, `CVT85`, `CVT85P` (R71 to R74). -/

namespace Sys2Proof.Machine

/-- Keep the low `n` bits of `ACC` (R70: `ACC & (2^n - 1)`). -/
def lowBits (n : Nat) (a : BitVec 12) : BitVec 12 := a &&& BitVec.ofNat 12 (2 ^ n - 1)

/-- `ACC <- 0 ; NB <- 0` (R70, R21). -/
def cvtInit (w : Work) : Work := { w with acc := 0, nb := 0 }

/-- An input group enters below the old bits: `ACC <- (ACC << f) | v ; NB <- NB + f` (R70). -/
def cvtShiftIn (f : Nat) (v : Byte) (w : Work) : Work :=
  { w with
    acc := (w.acc <<< f) ||| v.setWidth 12
    nb := Fin.ofNat 13 (w.nb.val + f) }

/-- One output group leaves: `NB <- NB - t ; emit(ACC >> NB) ; ACC <- ACC & (2^NB - 1)` (R70). -/
def cvtEmitGroup (t : Nat) (r : Run) : Run :=
  let nb := r.work.nb.val - t
  let group : Byte := (r.work.acc >>> nb).setWidth 8
  emit group { r with work := { r.work with acc := lowBits nb r.work.acc, nb := Fin.ofNat 13 nb } }

/-- `while NB >= t` emit a group (R70). The first argument bounds the rounds: each lowers `NB`. -/
def cvtDrain (t : Nat) : Nat → Run → Run
  | 0, r => r
  | rounds + 1, r => if t ≤ r.work.nb.val then cvtDrain t rounds (cvtEmitGroup t r) else r

/-- One input group: shifted in, then every whole output group drained (R70). -/
def cvtGroup (f t : Nat) (v : Byte) (r : Run) : Run :=
  let r' : Run := { r with work := cvtShiftIn f v r.work }
  cvtDrain t r'.work.nb.val r'

/-- The streaming loop of R70: an element of 2^f or more is `ValueRange`, found as it is met. -/
def cvtStream (f t : Nat) : List Byte → Run → Except BlockFault Run
  | [], r => .ok r
  | v :: rest, r => if 2 ^ f ≤ v.toNat then .error .valueRange else cvtStream f t rest (cvtGroup f t v r)

/-- The end of the stream (R70). With `pad`, a partial group is emitted with zeros on its right. Without,
`f` or more leftover bits are `IncompleteGroup`, and fewer are discarded whatever their value (C2). -/
def cvtEnd (f t : Nat) (pad : Bool) (r : Run) : Except BlockFault Run :=
  if pad then
    if 0 < r.work.nb.val then
      .ok (emit ((lowBits t (r.work.acc <<< (t - r.work.nb.val))).setWidth 8) r)
    else .ok r
  else if f ≤ r.work.nb.val then .error .incompleteGroup
  else .ok r

/-- `convert(data, f, t, pad)` of R70. -/
def convertRun (f t : Nat) (pad : Bool) (data : List Byte) (r : Run) : Except BlockFault Run :=
  match cvtStream f t data { r with work := cvtInit r.work } with
  | .error e => .error e
  | .ok r' => cvtEnd f t pad r'

/-- `CVT58`: `convert(IN, 5, 8, 0)` (R71). -/
def execCvt58 (s : State) : Host.Outcome State Fault Refusal :=
  conclude (convertRun 5 8 false s.inp s.start) s

/-- `CVT58P`: `convert(IN, 5, 8, 1)` (R72). -/
def execCvt58p (s : State) : Host.Outcome State Fault Refusal :=
  conclude (convertRun 5 8 true s.inp s.start) s

/-- `CVT85`: `convert(IN, 8, 5, 0)` (R73). -/
def execCvt85 (s : State) : Host.Outcome State Fault Refusal :=
  conclude (convertRun 8 5 false s.inp s.start) s

/-- `CVT85P`: `convert(IN, 8, 5, 1)` (R74). -/
def execCvt85p (s : State) : Host.Outcome State Fault Refusal :=
  conclude (convertRun 8 5 true s.inp s.start) s

end Sys2Proof.Machine
end

