-- ==== Sys2Proof/Machine/Field.lean ====
section
/-! DEFINITION. The MUL and INV units, `41_field.md`: the multiplier of R86 over the registers `MA`, `MR` and
`i`, the inverse table of R88, and the commands `GFMUL` and `GFINV`. Addition is `^^^` (R85). -/

namespace Sys2Proof.Machine

/-- Doubling and reduction of "the current `a`": `MA << 1`, and, when that reaches 32, exclusive-or with
`REDUCE` (R86). -/
def doubleReduce (c : Constants) (ma : BitVec 6) : BitVec 6 :=
  let doubled := ma <<< 1
  if 32 ≤ doubled.toNat then doubled ^^^ c.reduce else doubled

/-- The values the step index takes: the bits of operand `b`, low to high (R86, R16). -/
def mulOrder : List (Fin 5) := [0, 1, 2, 3, 4]

/-- The loop of R86 from given values of `MA` and `MR`, over the remaining step indices; its value is the
last `MR`. In each step `MR` takes `MA` in where the bit of `b` is set, then `MA` is doubled and
reduced. -/
def mulLoop (c : Constants) (b : Sym) : List (Fin 5) → BitVec 6 → Sym → Sym
  | [], _, mr => mr
  | k :: rest, ma, mr =>
    mulLoop c b rest (doubleReduce c ma)
      (if b.getLsbD k.val then mr ^^^ ma.setWidth 5 else mr)

/-- `gfmul(a, b)` (R86): `MA <- a ; MR <- 0`, the five steps, `return MR`. -/
def gfmul (c : Constants) (a b : Sym) : Sym := mulLoop c b mulOrder (a.setWidth 6) 0

/-- `MA` after the five steps; "the fifth doubling is computed and never used" (R86). -/
def lastMA (c : Constants) (a : Sym) : BitVec 6 :=
  mulOrder.foldl (fun ma _ => doubleReduce c ma) (a.setWidth 6)

/-- A multiplication on the registers: the product is left in `MR`, the step index at its last value
(R86, R16). -/
def multiply (c : Constants) (a b : Sym) (w : Work) : Work :=
  { w with ma := lastMA c a, mr := gfmul c a b, i := 4 }

/-- `INV[a]` (R12). -/
def invTable (c : Constants) (a : Sym) : Sym := c.inv.get a.toFin

/-- `GFMUL a, b` (R86): `IN` must be empty. -/
def gfmulRun (c : Constants) (a b : Sym) (inp : List Byte) (r : Run) : Except BlockFault Run :=
  if inp.isEmpty then
    let w := multiply c a b r.work
    .ok (emit (symToByte w.mr) { r with work := w })
  else .error .badFrame

/-- `GFINV a` (R88): `IN` must be empty, and `a` not 0 (C4). -/
def gfinvRun (c : Constants) (a : Sym) (inp : List Byte) (r : Run) : Except BlockFault Run :=
  if inp.isEmpty then
    if a = 0 then .error .inverseOfZero else .ok (emit (symToByte (invTable c a)) r)
  else .error .badFrame

/-- `GFMUL a, b` (R86). -/
def execGfmul (a b : Sym) (s : State) : Host.Outcome State Fault Refusal :=
  conclude (gfmulRun Config.constants a b s.inp s.start) s

/-- `GFINV a` (R88). -/
def execGfinv (a : Sym) (s : State) : Host.Outcome State Fault Refusal :=
  conclude (gfinvRun Config.constants a s.inp s.start) s

end Sys2Proof.Machine
end

