-- ==== Sys2Proof/Machine/Interpolation.lean ====
section
/-! DEFINITION. The LGR unit, `43_interpolation.md`: the checks of R125, the weights of R121 over the
registers `XS`, `X`, `LN`, `LM` and `WT` (in the arrangement of the document's own sketch, log 15), the
lanes of R123 over the position accumulators, and the commands `LAGW` and `INTERP`. Every product is
formed by the multiplier. -/

namespace Sys2Proof.Machine

/-- Load the x-coordinates and the target; no weight and no accumulator yet (R121, R21). -/
def lgrLoad (x : Sym) (xs : List Sym) (w : Work) : Work :=
  { w with x := x, xs := xs, wt := [], accs := [] }

/-- Checks 4 and 5 of R125, in that order: repeated x-coordinates, then the target among them. -/
def pointFault (x : Sym) (xs : List Sym) : Option BlockFault :=
  if hasRepeat xs then some .duplicateShareIndex
  else if xs.contains x then some .targetIndexPresent
  else none

/-- `LN <- gfmul(LN, XS[i] ^ X)` (R121). -/
def lnStep (c : Constants) (w : Work) (i : Nat) : Work :=
  let w' := multiply c w.ln (w.xs.getD i 0 ^^^ w.x) w
  { w' with ln := w'.mr }

/-- `LM <- gfmul(LM, X ^ XS[j])` when `j = i`, else `LM <- gfmul(LM, XS[i] ^ XS[j])` (R121). -/
def lmStep (c : Constants) (i : Nat) (w : Work) (j : Nat) : Work :=
  let factor := if j = i then w.x ^^^ w.xs.getD j 0 else w.xs.getD i 0 ^^^ w.xs.getD j 0
  let w' := multiply c w.lm factor w
  { w' with lm := w'.mr }

/-- One weight: `LM <- 1`, the products over all `j`, `WT[i] <- gfmul(LN, INV[LM])` (R121). -/
def weightStep (c : Constants) (w : Work) (i : Nat) : Work :=
  let w1 := (List.range w.xs.length).foldl (lmStep c i) { w with lm := 1 }
  let w2 := multiply c w1.ln (invTable c w1.lm) w1
  { w2 with wt := w2.wt ++ [w2.mr] }

/-- All the weights of R121, left in `WT`. -/
def weightsRun (c : Constants) (w : Work) : Work :=
  let w1 := (List.range w.xs.length).foldl (lnStep c) { w with ln := 1 }
  (List.range w1.xs.length).foldl (weightStep c) w1

/-- `LAGW x` (R122): the checks of R125 in their order, then the weights. -/
def lagwRun (c : Constants) (x : Sym) (inp : List Byte) (r : Run) : Except BlockFault Run :=
  if inp.isEmpty then .error .badFrame
  else
    match readSymbols inp with
    | .error e => .error e
    | .ok xs =>
      match pointFault x xs with
      | some f => .error f
      | none =>
        let w := weightsRun c (lgrLoad x xs r.work)
        .ok (emitAll (w.wt.map symToByte) { r with work := w })

/-- One term of a lane: `y = y ^ gfmul(WT[j], V[j][i])`, `y` being accumulator `i` (R123). -/
def laneStep (c : Constants) (vs : List (List Sym)) (i : Nat) (w : Work) (j : Nat) : Work :=
  let w' := multiply c (w.wt.getD j 0) ((vs.getD j []).getD i 0) w
  { w' with accs := w'.accs.set i (w'.accs.getD i 0 ^^^ w'.mr) }

/-- One lane: the terms of all vectors, then `emit(y)` (R123). -/
def laneRun (c : Constants) (vs : List (List Sym)) (r : Run) (i : Nat) : Run :=
  let w := (List.range vs.length).foldl (laneStep c vs i) r.work
  emit (symToByte (w.accs.getD i 0)) { r with work := w }

/-- `INTERP K, x` (R123): the checks of R125 in their order, the x-coordinates from position 5 of each
vector, the weights, the lanes. -/
def interpRun (c : Constants) (k x : Sym) (inp : List Byte) (r : Run) : Except BlockFault Run :=
  if interpFrame k inp then
    match readSymbols inp with
    | .error e => .error e
    | .ok syms =>
      let n := inp.length / k.toNat
      let vs := vectors k.toNat n syms
      let xs := vs.map xCoordinate
      match pointFault x xs with
      | some f => .error f
      | none =>
        let w := weightsRun c (lgrLoad x xs r.work)
        .ok ((List.range n).foldl (laneRun c vs)
          { r with work := { w with accs := List.replicate n 0 } })
  else .error .badFrame

/-- `LAGW x` (R122). -/
def execLagw (x : Sym) (s : State) : Host.Outcome State Fault Refusal :=
  conclude (lagwRun Config.constants x s.inp s.start) s

/-- `INTERP K, x` (R123). -/
def execInterp (k x : Sym) (s : State) : Host.Outcome State Fault Refusal :=
  conclude (interpRun Config.constants k x s.inp s.start) s

end Sys2Proof.Machine
end

