-- ==== Sys2Proof/Machine/Dispatch.lean ====
section
/-! DEFINITION. One arm per command, each a direct call of its meaning. -/

namespace Sys2Proof.Machine

def exec (i : Instr) (s : State) : Host.Outcome State Fault Refusal :=
  match i with
  | .cvt58 => Sys2Proof.Machine.execCvt58 s
  | .cvt58p => Sys2Proof.Machine.execCvt58p s
  | .cvt85 => Sys2Proof.Machine.execCvt85 s
  | .cvt85p => Sys2Proof.Machine.execCvt85p s
  | .gfmul a b => Sys2Proof.Machine.execGfmul a b s
  | .gfinv a => Sys2Proof.Machine.execGfinv a s
  | .pmods => Sys2Proof.Machine.execPmods s
  | .pmodl => Sys2Proof.Machine.execPmodl s
  | .cksum => Sys2Proof.Machine.execCksum s
  | .verify => Sys2Proof.Machine.execVerify s
  | .lagw x => Sys2Proof.Machine.execLagw x s
  | .interp k x => Sys2Proof.Machine.execInterp k x s

end Sys2Proof.Machine
end

