-- ==== Sys2Proof/Machine/Step.lean ====
section
/-! DEFINITION. One step is one whole transaction (`20_memory.md` R40, D25; log 10). -/

namespace Sys2Proof.Machine

/-- One step. In phase issued the command word is decoded and the command executed, or the transaction
ends with `IllegalCommand` (R51, R53). With no transaction issued nothing happens (log 4). -/
def step (s : State) : Host.Outcome State Fault Refusal :=
  match s.phase with
  | .issued =>
    match decode (fetchWord s) with
    | .ok i => exec i s
    | .error e => .next (rejectWord e s)
  | .idle => .next (rest s)
  | .complete => .next (rest s)

/-- The host places a command word and issues the transaction, `IN` staying as it is: `CW` is the
instruction's word, and the phase is issued, so that the very next step runs it (log 4). A transaction
issued and not yet run is replaced by it (DESIGN CHOICE, log 18). -/
def State.withFetchWord (s : State) (nbits w : Nat) : State :=
  { s with phase := .issued, cw := BitVec.ofNat 16 (w % 2 ^ nbits) }

end Sys2Proof.Machine
end

