-- ==== Sys2Proof/Machine/Flags.lean ====
section
/-! DEFINITION. The block has no flags and no condition codes (`10_state.md` R20; "Flags: none" in every
command rule). Its one status is `ST`: here are its codes (`60_exceptions.md` R170) and the order in which
faults are reported (R172). -/

namespace Sys2Proof.Machine

/-- The code of a fault (R170). -/
def BlockFault.code : BlockFault → BitVec 4
  | .illegalCommand => 1
  | .valueRange => 2
  | .incompleteGroup => 3
  | .badFrame => 4
  | .duplicateShareIndex => 5
  | .targetIndexPresent => 6
  | .inverseOfZero => 7

/-- The 4-bit status word `ST` as the host reads it (R170). -/
def Status.code : Status → BitVec 4
  | .ok => 0
  | .fault f => f.code

/-- The rank at which a fault is reported when several apply (R172): `IllegalCommand`, then `BadFrame`,
then `ValueRange`, then the command's own condition, `DuplicateShareIndex` before
`TargetIndexPresent`. -/
def BlockFault.rank : BlockFault → Nat
  | .illegalCommand => 1
  | .badFrame => 2
  | .valueRange => 3
  | .incompleteGroup => 4
  | .inverseOfZero => 4
  | .duplicateShareIndex => 4
  | .targetIndexPresent => 5

end Sys2Proof.Machine
end

