-- ==== Sys2Proof/Machine/HostSide.lean ====
section
/-! DEFINITION. What the host can do to the block (`10_state.md` R19, `20_memory.md` R32, R40,
`70_reset_and_hazards.md` R190): issue a transaction, read a result, apply a reset, and run a script of
transactions in order. The host is the environment, not an agent of the machine (R175). -/

namespace Sys2Proof.Machine

/-- Whether `IN` may have this many elements: `maxLen` is `MAX_LEN`, "the largest number of elements in
`IN`", OPEN, `none` for unbounded (R3, D17, U10; log 7). -/
def lengthAllowed (maxLen : Option Nat) (len : Nat) : Bool :=
  match maxLen with
  | none => true
  | some m => len ≤ m

/-- The host supplies `CW` and `IN` (R19) to a block whose `MAX_LEN` is the argument; `none` where `IN` is
longer, which is no transaction of that block (DESIGN CHOICE, log 7).

DESIGN CHOICE (log 18): where a transaction is issued and not yet run, the new `CW` and `IN` replace the
pending ones, and the replaced transaction ends with no `ST` and no `OUT`. The spec describes no such event:
it says only that transactions run "one at a time, each to completion, in the order the host issues them"
(R40) and that commands are issued "one after another" (R57). -/
def State.issueWithin (maxLen : Option Nat) (cw : CmdWord) (inp : List Byte) (s : State) : Option State :=
  if lengthAllowed maxLen inp.length then some { s with phase := .issued, cw := cw, inp := inp } else none

/-- The host supplies `CW` and `IN` (R19) under the configured `MAX_LEN` (R3; log 7): a pending transaction is
replaced (DESIGN CHOICE, log 18), and a stream that is too long leaves the block as it is. -/
def State.issue (cw : CmdWord) (inp : List Byte) (s : State) : State :=
  (s.issueWithin Config.maxLen cw inp).getD s

/-- What the host can read: `ST` and `OUT` once a transaction has ended, and nothing before (R21: "there is
no status before the first transaction ends"; R190: an abandoned transaction has none). -/
def State.result (s : State) : Option (Status × List Byte) :=
  match s.phase with
  | .complete => some (s.st, s.out)
  | .idle => none
  | .issued => none

/-- A reset applied in any state (R190): the block is idle, a transaction in progress is abandoned without
`ST` and without `OUT`, and the working registers are unspecified (R21), hence free (log 11). -/
def State.applyReset (s : State) : State :=
  { State.reset with
    work := Config.leftoverRegisters s.freeCount
    freeCount := s.freeCount + 1 }

/-- The state a step leads to; a stop leaves the state, but no step stops (R171). -/
def stepState (s : State) : State :=
  match step s with
  | .next t => t
  | .fault _ => s
  | .refused _ => s

/-- One transaction from the host's side, for a given `MAX_LEN`: issue, one step (R40, D25); `none` where the
stream is too long to be issued (log 7). -/
def transactWithin (maxLen : Option Nat) (cw : CmdWord) (inp : List Byte) (s : State) : Option State :=
  (s.issueWithin maxLen cw inp).map stepState

/-- One transaction under the configured `MAX_LEN` (R3). -/
def transact (cw : CmdWord) (inp : List Byte) (s : State) : State :=
  (transactWithin Config.maxLen cw inp s).getD s

/-- A host script (R57) for a given `MAX_LEN`: transactions issued one after another, each result read when
its transaction has ended. An entry whose stream is too long is not issued: it has no result, and the block
stays as it was (log 7). -/
def runScriptWithin (maxLen : Option Nat) :
    List (CmdWord × List Byte) → State → List (Option (Status × List Byte))
  | [], _ => []
  | (cw, inp) :: rest, s =>
    match transactWithin maxLen cw inp s with
    | some t => t.result :: runScriptWithin maxLen rest t
    | none => none :: runScriptWithin maxLen rest s

/-- A host script under the configured `MAX_LEN` (R57, R3). -/
def runScript (script : List (CmdWord × List Byte)) (s : State) : List (Option (Status × List Byte)) :=
  runScriptWithin Config.maxLen script s

end Sys2Proof.Machine
end

