-- ==== Sys2Proof/Safety.lean ====
section
/-! DEFINITION. The terms the claims use. First a reading of the spec on plain integers, bit strings and
closed forms, which no register takes part in: the regrouped bit string of the converter (R33), the
product of polynomials (R85, R86), the residue on integers (R100), the Lagrange weights in closed form
(R121). Then the faults that apply to a command (R170) and the one reported (R172), what a command
answers on that reading, and what makes a result and a set of constants sound (R32, R171, R191). -/

namespace Sys2Proof.Machine

/-! The converter as one bit string (R33). -/

/-- The low `f` bits of an element, most significant first (R33). -/
def groupBits (f : Nat) (v : Byte) : List Bool := (List.range f).map fun k => v.getLsbD (f - 1 - k)

/-- The input groups concatenated left to right (R33). -/
def bitString (f : Nat) (data : List Byte) : List Bool := data.flatMap (groupBits f)

/-- The value of a string of binary digits, the first the most significant. -/
def bitsValue (bits : List Bool) : Nat := bits.foldl (fun v b => 2 * v + b.toNat) 0

/-- The whole groups of `t` digits cut from the left of a string (R33). -/
def cutGroups (t : Nat) (bits : List Bool) : List Byte :=
  (List.range (bits.length / t)).map fun j => BitVec.ofNat 8 (bitsValue ((bits.drop (j * t)).take t))

/-- Zeros that complete the last group of `t` digits (R70, `pad`). -/
def padding (t : Nat) (bits : List Bool) : List Bool :=
  List.replicate ((t - bits.length % t) % t) false

/-- The conversion as a regrouping of one bit string (R33, R70). -/
def regroup (f t : Nat) (pad : Bool) (data : List Byte) : List Byte :=
  let bits := bitString f data
  cutGroups t (if pad then bits ++ padding t bits else bits)

/-- A payload with the `l` lowest bits of its last symbol cleared (R75). -/
def clearLastBits (l : Nat) (inp : List Byte) : List Byte :=
  inp.modify (inp.length - 1) fun v => (v >>> l) <<< l

/-! Multiplication as a product of polynomials (R85, R86). -/

/-- The product of two polynomials over the two-element field, bit `i` the coefficient of x^i (R85). -/
def polyProduct (a b : Nat) : Nat :=
  (List.range 5).foldl (fun p i => if b.testBit i then p ^^^ (a <<< i) else p) 0

/-- The remainder of a polynomial of degree at most 8 by one of degree 5 (R11). -/
def polyRemainder (m v : Nat) : Nat :=
  [8, 7, 6, 5].foldl (fun r k => if r.testBit k then r ^^^ (m <<< (k - 5)) else r) v

/-- The field product on integers 0..31 (R85, R86). -/
def productOnNat (reduce a b : Nat) : Nat := polyRemainder reduce (polyProduct a b)

/-- Doubling and reduction on integers: "double `a` (shift left by one bit) and, if the doubled value
reaches or exceeds 32, reduce it by XOR with the fixed reduction constant" (R86). -/
def doubleNat (reduce a : Nat) : Nat := if 32 ≤ 2 * a then (2 * a) ^^^ reduce else 2 * a

/-- The document's loop on integers, over the bits still to use: the accumulating result takes the
current `a` in where the bit of `b` is set, then `a` is doubled (R86). -/
def doublingLoop (reduce b : Nat) : List Nat → Nat → Nat → Nat
  | [], _, result => result
  | i :: rest, a, result =>
    doublingLoop reduce b rest (doubleNat reduce a) (if b.testBit i then result ^^^ a else result)

/-- Multiplication by repeated doubling, on integers (R86). -/
def repeatedDoubling (reduce a b : Nat) : Nat := doublingLoop reduce b [0, 1, 2, 3, 4] a 0

/-! The checksum register on integers (R100). -/

/-- The generators of a code, as integers (R13, R14). -/
def generatorsNat (c : Constants) : Code → List Nat
  | .short => c.genS.toList.map BitVec.toNat
  | .long => c.genL.toList.map BitVec.toNat

/-- The target of a code, as an integer (R13, R14). -/
def targetNat (c : Constants) : Code → Nat
  | .short => c.targetS.toNat
  | .long => c.targetL.toNat

/-- One register step on integers, `width` the register's (R100). -/
def residueStepNat (width : Nat) (gens : List Nat) (res s : Nat) : Nat :=
  (List.range 5).foldl
    (fun r i => if (res / 2 ^ (width - 5)).testBit i then r ^^^ gens.getD i 0 else r)
    (res % 2 ^ (width - 5) * 32 + s)

/-- `polymod(symbols, code)` on integers (R100). -/
def polymodNat (c : Constants) (code : Code) (syms : List Nat) : Nat :=
  syms.foldl (residueStepNat (regWidth code) (generatorsNat c code)) c.init.toNat

/-- The groups of five bits of a residue, most significant first (R34). -/
def groupsNat (code : Code) (res : Nat) : List Byte :=
  (List.range (ckSymbols code)).map fun g =>
    BitVec.ofNat 8 (res / 2 ^ (regWidth code - 5 - 5 * g) % 32)

/-! Lagrange weights in closed form (R121). -/

/-- A product of field elements, starting from 1 (R121: "an empty product is 1"). -/
def productOf (c : Constants) (xs : List Sym) : Sym := xs.foldl (gfmul c) 1

/-- `NUM_i`: the product over all `j != i` of `X ^ XS[j]` (R121). -/
def numerator (c : Constants) (x : Sym) (xs : List Sym) (i : Nat) : Sym :=
  productOf c ((xs.eraseIdx i).map (x ^^^ ·))

/-- `DEN_i`: the product over all `j != i` of `XS[i] ^ XS[j]` (R121). -/
def denominator (c : Constants) (xs : List Sym) (i : Nat) : Sym :=
  productOf c ((xs.eraseIdx i).map (xs.getD i 0 ^^^ ·))

/-- `WT[i] = gfmul(NUM_i, INV[DEN_i])` (R121). -/
def lagrangeWeight (c : Constants) (x : Sym) (xs : List Sym) (i : Nat) : Sym :=
  gfmul c (numerator c x xs i) (invTable c (denominator c xs i))

/-- All the weights (R121). -/
def lagrangeWeights (c : Constants) (x : Sym) (xs : List Sym) : List Sym :=
  (List.range xs.length).map (lagrangeWeight c x xs)

/-- The exclusive-or of all elements of a list. -/
def xorAll (ys : List Sym) : Sym := ys.foldl (· ^^^ ·) 0

/-- Position `i` of the interpolated vector: the exclusive-or over all vectors `j` of
`weight[j] * V[j][i]` (R123). -/
def interpolatedAt (c : Constants) (x : Sym) (vs : List (List Sym)) (i : Nat) : Sym :=
  xorAll (List.zipWith (fun wt v => gfmul c wt (v.getD i 0))
    (lagrangeWeights c x (vs.map xCoordinate)) vs)

/-- The value at `x` of the polynomial with the given coefficients, the constant one first (R123: the
shares of one secret lie on one polynomial at each position). -/
def polynomialAt (c : Constants) (coeffs : List Sym) (x : Sym) : Sym :=
  coeffs.foldr (fun a v => a ^^^ gfmul c x v) 0

/-! Which faults apply, and which one is reported. -/

/-- Every element of the stream is a symbol (R43). -/
abbrev allSymbols (inp : List Byte) : Prop := ∀ v ∈ inp, v.toNat < 32

/-- The commands whose `IN` is a symbol stream (R43, R170). -/
def takesSymbols : Instr → Bool
  | .cvt58 | .cvt58p | .pmods | .pmodl | .cksum | .verify | .lagw _ | .interp _ _ => true
  | .cvt85 | .cvt85p | .gfmul _ _ | .gfinv _ => false

/-- The K vectors of `INTERP` (R37). -/
def interpVectors (k : Sym) (inp : List Byte) : List (List Sym) :=
  vectors k.toNat (inp.length / k.toNat) (inp.map byteToSym)

/-- The x-coordinates an interpolation command reads (R120, R122). -/
def pointsOf (i : Instr) (inp : List Byte) : List Sym :=
  match i with
  | .lagw _ => inp.map byteToSym
  | .interp k _ => (interpVectors k inp).map xCoordinate
  | .cvt58 | .cvt58p | .cvt85 | .cvt85p | .gfmul _ _ | .gfinv _ | .pmods | .pmodl | .cksum
  | .verify => []

/-- The shape of `IN` does not fit the command (R170, `BadFrame`). -/
def badFrameApplies (i : Instr) (inp : List Byte) : Bool :=
  match i with
  | .gfmul _ _ | .gfinv _ => inp ≠ []
  | .lagw _ => inp = []
  | .interp k _ => k = 0 ∨ inp = [] ∨ inp.length % k.toNat ≠ 0 ∨ inp.length / k.toNat < 6
  | .cvt58 | .cvt58p | .cvt85 | .cvt85p | .pmods | .pmodl | .cksum | .verify => false

/-- The target is one of the x-coordinates (R170, `TargetIndexPresent`). -/
def targetPresent (i : Instr) (inp : List Byte) : Bool :=
  match i with
  | .lagw x | .interp _ x => x ∈ pointsOf i inp
  | .cvt58 | .cvt58p | .cvt85 | .cvt85p | .gfmul _ _ | .gfinv _ | .pmods | .pmodl | .cksum
  | .verify => false

/-- Whether the cause R170 gives a fault is there, for a legal command and its stream. `IllegalCommand`
is a matter of the word alone (R53). -/
def faultApplies (f : BlockFault) (i : Instr) (inp : List Byte) : Bool :=
  match f with
  | .illegalCommand => false
  | .badFrame => badFrameApplies i inp
  | .valueRange => takesSymbols i && inp.any (fun v => 32 ≤ v.toNat)
  | .incompleteGroup => i = .cvt58 ∧ 5 ≤ 5 * inp.length % 8
  | .inverseOfZero => i = .gfinv 0
  | .duplicateShareIndex => ¬ (pointsOf i inp).Nodup
  | .targetIndexPresent => targetPresent i inp

/-- The fault reported when several apply: the first in the order of R172. -/
def reportedFault (i : Instr) (inp : List Byte) : Option BlockFault :=
  [BlockFault.badFrame, .valueRange, .incompleteGroup, .inverseOfZero, .duplicateShareIndex,
    .targetIndexPresent].find? fun f => faultApplies f i inp

/-! What a command answers, on the reading. -/

/-- The output of a command to which no fault applies (R71 to R74, R86, R88, R101, R102, R104, R105,
R122, R123). -/
def outputOf (c : Constants) (i : Instr) (inp : List Byte) : List Byte :=
  match i with
  | .cvt58 => regroup 5 8 false inp
  | .cvt58p => regroup 5 8 true inp
  | .cvt85 => regroup 8 5 false inp
  | .cvt85p => regroup 8 5 true inp
  | .gfmul a b => [BitVec.ofNat 8 (productOnNat c.reduce.toNat a.toNat b.toNat)]
  | .gfinv a => [symToByte (invTable c a)]
  | .pmods => groupsNat .short (polymodNat c .short (inp.map BitVec.toNat))
  | .pmodl => groupsNat .long (polymodNat c .long (inp.map BitVec.toNat))
  | .cksum =>
    let code := contentCode c inp.length
    let zeros := List.replicate (ckSymbols code) 0
    groupsNat code (polymodNat c code (inp.map BitVec.toNat ++ zeros) ^^^ targetNat c code)
  | .verify =>
    match wholeCode c inp.length with
    | none => [0]
    | some code =>
      if polymodNat c code (inp.map BitVec.toNat) = targetNat c code then [1] else [0]
  | .lagw x => (lagrangeWeights c x (inp.map byteToSym)).map symToByte
  | .interp k x =>
    (List.range (inp.length / k.toNat)).map fun i =>
      symToByte (interpolatedAt c x (interpVectors k inp) i)

/-- What a command answers (R171: an `OUT` with `OK`, or a fault with an empty `OUT`). -/
def answerOf (c : Constants) (i : Instr) (inp : List Byte) : Status × List Byte :=
  match reportedFault i inp with
  | some f => (.fault f, [])
  | none => (.ok, outputOf c i inp)

/-- What a transaction answers: a function of `CW` and `IN` alone (R4, R10). -/
def transactionAnswer (c : Constants) (cw : CmdWord) (inp : List Byte) : Status × List Byte :=
  match decode cw with
  | .ok i => answerOf c i inp
  | .error _ => (.fault .illegalCommand, [])

/-! Soundness of a result, of a state, and of a set of constants. -/

/-- The stream of an `INTERP` with vector `m` replaced by another of the same length (R37). -/
def replaceVector (k : Sym) (m : Nat) (v inp : List Byte) : List Byte :=
  inp.take (m * (inp.length / k.toNat)) ++ v ++ inp.drop ((m + 1) * (inp.length / k.toNat))

/-- A fault comes with an empty `OUT` (R32, R171). -/
def State.resultSound (s : State) : Prop := s.st ≠ .ok → s.out = []

/-- A result standing in the state is the answer to the transaction standing in it (R4, R10, R40). -/
def State.answered (s : State) : Prop :=
  s.phase = .complete → (s.st, s.out) = transactionAnswer Config.constants s.cw s.inp

/-- The elements a command may emit: symbols below 32, a boolean 0 or 1, or bytes (R32, R197). -/
def emitsOnly (i : Instr) (v : Byte) : Prop :=
  match i with
  | .cvt58 | .cvt58p => True
  | .verify => v = 0 ∨ v = 1
  | .cvt85 | .cvt85p | .gfmul _ _ | .gfinv _ | .pmods | .pmodl | .cksum | .lagw _ | .interp _ _ =>
    v.toNat < 32

/-- The arithmetic laws of R87 for a set of constants (closure is the type's). -/
structure FieldLaws (c : Constants) : Prop where
  comm : ∀ a b, gfmul c a b = gfmul c b a
  assoc : ∀ a b d, gfmul c (gfmul c a b) d = gfmul c a (gfmul c b d)
  distrib : ∀ a b d, gfmul c a (b ^^^ d) = gfmul c a b ^^^ gfmul c a d
  one_mul : ∀ a, gfmul c 1 a = a
  eq_zero : ∀ a b, gfmul c a b = 0 → a = 0 ∨ b = 0
  inverse_unique : ∀ a b, a ≠ 0 → (gfmul c a b = 1 ↔ b = invTable c a)

/-- The properties the constants must satisfy (R191). The bounds of `GEN_*`, `TARGET_*`, `INIT` and
`REDUCE` are carried by the widths of `Constants`. -/
structure ValidConstants (c : Constants) : Prop where
  /-- `REDUCE`: bit 5 set. -/
  reduce_bit5 : c.reduce.getLsbD 5 = true
  /-- The laws of R87, which include `gfmul(a, INV[a]) = 1` for `a` in 1..31. -/
  field : FieldLaws c
  /-- `INV[0] = 0`. -/
  inv_zero : invTable c 0 = 0

end Sys2Proof.Machine
end

