-- ==== Sys2Proof/Certificates/Slice0/Obligations.lean ====
section
/-! DEFINITION. The statements for the provers. `deliver` and `raise` are the two ends of a transaction
(`Machine/Ops.lean`): a conclusion `exec i s = .next (deliver out s)` says that the command completes, that
`ST` is `OK` and `OUT` is `out`, that `CW` and `IN` are as they were, and that the working registers hold
the free value of log 3; nothing rests on that value. -/

open Sys2Proof Sys2Proof.Machine

/-! The command word. -/

/-- R50, R52, R54: the decoder reads from the word of a well-formed command that command, with every
inline operand at every value. -/
def Obligations.DecodeOfEncode : Prop :=
  ∀ i : Instr, i.wellFormed = true → decode (encode i) = .ok i

/-- R50 to R54: a word that decodes is the word of the command it decodes to, so no two words mean the same
command and no bit of a word is ignored. -/
def Obligations.EncodeOfDecode : Prop :=
  ∀ (w : CmdWord) (i : Instr), decode w = .ok i → encode i = w

/-- R51, R53: a word decodes exactly when its opcode is assigned and the reserved bits of its format are
0; otherwise it is rejected under the name of what is wrong with it. -/
def Obligations.LegalWordsDecode : Prop :=
  ∀ w : CmdWord,
    ((∃ i, decode w = .ok i) ↔ legalWord w = true) ∧
    (formatOf (opcodeOf w) = none → decode w = .error (.unassignedOpcode (opcodeOf w))) ∧
    (∀ fmt, formatOf (opcodeOf w) = some fmt → reservedZero w fmt = false →
      decode w = .error (.reservedBit w))

/-- R52: twelve rows, and no word selects two of them. -/
def Obligations.OpcodeRowsDisjoint : Prop :=
  rows.length = 12 ∧ rows.Pairwise fun r r' => ∀ w : CmdWord, ¬ (r.selects w = true ∧ r'.selects w = true)

/-- R52, R53: words written out from the encoding decode to the commands they stand for. -/
def Obligations.WrittenWordsDecode : Prop :=
  decode 0b0001000000000011 = .ok .cvt85p ∧
  decode 0b0010000001010000 = .ok (.gfmul 16 2) ∧
  decode 0b0011000000000010 = .ok (.gfinv 2) ∧
  decode 0b0100000000000001 = .ok .pmodl ∧
  decode 0b0110000000000000 = .ok .verify ∧
  decode 0b0111000000001101 = .ok (.lagw 13) ∧
  decode 0b1000000001010000 = .ok (.interp 2 16) ∧
  decode 0b1000010001010000 = .error (.reservedBit 0x8450) ∧
  decode 0b1001000000000000 = .error (.unassignedOpcode 9)

/-- R56: `RECOVER K` is `INTERP K, 16`, with the word `0x8000 | (K << 5) | 16`. -/
def Obligations.RecoverIsInterpAtSecretIndex : Prop :=
  ∀ k : Sym, Instr.recover k = .interp k 16 ∧
    encode (Instr.recover k) = 0x8000 ||| (k.setWidth 16 <<< 5) ||| 16

/-! The step. -/

/-- R40, R51: a step of a block to which a legal command is issued is that command. -/
def Obligations.StepRunsDecoded : Prop :=
  ∀ (s : State) (i : Instr), s.phase = .issued → decode s.cw = .ok i → step s = exec i s

/-- R53, R171: an illegal word ends the transaction with `IllegalCommand` and an empty `OUT`, whatever
`IN` holds. The form of the
ended state (`CW` and `IN` standing on, registers free) is the model's, logs 3 and 4. -/
def Obligations.IllegalWordFaults : Prop :=
  ∀ s : State, s.phase = .issued → legalWord s.cw = false → step s = .next (raise .illegalCommand s)

/-- The model's choice (log 4), for R190's "the block is idle": with no transaction issued a step changes
nothing. -/
def Obligations.UnissuedBlockRests : Prop :=
  ∀ s : State, s.phase ≠ .issued → step s = .next s

/-- R4, R171: no step is stuck. -/
def Obligations.EveryStepAnswersNext : Prop :=
  ∀ s : State, ∃ t, step s = .next t

/-- The frame of every command: the transaction is ended, and a fault has emptied `OUT` (R32, R171). That `CW`
and `IN` stand on in the ended state is the model's choice, log 4; the counter of free values, which has
advanced once, is the model's own, log 3. -/
def Obligations.CommandFrame : Prop :=
  ∀ (i : Instr) (s t : State), exec i s = .next t →
    t.cw = s.cw ∧ t.inp = s.inp ∧ t.phase = .complete ∧ t.freeCount = s.freeCount + 1 ∧
      (t.st ≠ .ok → t.out = [])

/-- R170, R171: a legal command to whose stream none of R170's causes applies completes with `OK`. The form of the
ended state (`CW` and `IN` standing on, registers free) is the model's, logs 3 and 4. -/
def Obligations.CompletesWhereNoFaultApplies : Prop :=
  ∀ (i : Instr) (s : State), (∀ f, faultApplies f i s.inp = false) →
    ∃ out, exec i s = .next (deliver out s)

/-- R172: one transaction reports one status, the first in the order of the rule among the faults that
apply: `IllegalCommand` on the word alone, else the applying fault of least rank. -/
def Obligations.FirstFaultIsReported : Prop :=
  ∀ s : State, s.phase = .issued →
    (legalWord s.cw = false →
      ∃ t, step s = .next t ∧ t.result = some (.fault .illegalCommand, [])) ∧
    (∀ i, decode s.cw = .ok i → (∃ f, faultApplies f i s.inp = true) →
      ∃ g, faultApplies g i s.inp = true ∧
        (∀ f, faultApplies f i s.inp = true → g.rank ≤ f.rank) ∧
        ∃ t, step s = .next t ∧ t.result = some (.fault g, []))

/-- R4: a step of an issued transaction ends it, with a result that is a function of its `CW` and `IN` alone,
whatever every register, the earlier result and the counter were. -/
def Obligations.ResultDependsOnCwAndInOnly : Prop :=
  ∀ (cw : CmdWord) (inp : List Byte), ∃ a, ∀ s : State, s.phase = .issued → s.cw = cw → s.inp = inp →
    ∃ t, step s = .next t ∧ t.result = some a

/-- The machine meets the reading of the spec on integers, bit strings and closed forms (R70, R86, R88,
R100, R104, R105, R121, R123, R170, R172): every step of an issued transaction ends it with the answer the
reading gives. The form of the
ended state (`CW` and `IN` standing on, registers free) is the model's, logs 3 and 4. -/
def Obligations.TransactionsMeetReading : Prop :=
  ∀ s : State, s.phase = .issued →
    step s = .next (endTransaction (transactionAnswer Config.constants s.cw s.inp).1
      (transactionAnswer Config.constants s.cw s.inp).2 s)

/-- R10, R40, R57, R174: a host script of any length, from any state, gives each transaction the answer it
gives alone; no fault and no result of an earlier transaction changes a later one. That a transaction still
pending in the first state is replaced by the script's first is the model's choice, log 18. -/
def Obligations.ScriptAnswersEachAlone : Prop :=
  ∀ (script : List (CmdWord × List Byte)) (s : State),
    runScript script s =
      script.map fun t => some (transactionAnswer Config.constants t.1 t.2)

/-! Invariants. -/

/-- R32, R171: a fault standing in the state comes with an empty `OUT`, and every step keeps that. For a step
with no transaction issued this is the model's choice, log 4. -/
def Obligations.StepKeepsResultSound : Prop :=
  ∀ s t : State, s.resultSound → step s = .next t → t.resultSound

/-- The model's choice (log 1): the values that stand in `ST` and `OUT` at reset, to which R21 gives none, are
`ok` and empty, and these meet the invariant of `StepKeepsResultSound`. -/
def Obligations.ResetResultSound : Prop := State.reset.resultSound

/-- The model's choice in part (log 4): a result standing in the state is the answer to the `CW` and `IN`
standing in it, and every step keeps that. That `CW` and `IN` stand on after a transaction, and that a step
with no transaction issued changes nothing, is log 4's choice and no rule of the spec; from the spec is only
that the result of a transaction is a function of its `CW` and `IN` (R4). -/
def Obligations.StepKeepsAnswered : Prop :=
  ∀ s t : State, s.answered → step s = .next t → t.answered

/-- R190: no transaction has ended at reset, so no result stands there that the invariant of
`StepKeepsAnswered` would have to match. -/
def Obligations.ResetAnswered : Prop := State.reset.answered

/-- R32, R197: no command emits an element outside the range of its results. -/
def Obligations.OutputsInRange : Prop :=
  ∀ (i : Instr) (s t : State), exec i s = .next t → ∀ v ∈ t.out, emitsOnly i v

/-! Status and reset. -/

/-- R170: the codes of `ST`; 8 to 15 are never produced. -/
def Obligations.StatusCodes : Prop :=
  Status.ok.code = 0 ∧ (Status.fault .illegalCommand).code = 1 ∧
  (Status.fault .valueRange).code = 2 ∧ (Status.fault .incompleteGroup).code = 3 ∧
  (Status.fault .badFrame).code = 4 ∧ (Status.fault .duplicateShareIndex).code = 5 ∧
  (Status.fault .targetIndexPresent).code = 6 ∧ (Status.fault .inverseOfZero).code = 7 ∧
  ∀ st : Status, st.code.toNat < 8

/-- R21, R190: right after reset the block is idle and there is no result to read. -/
def Obligations.ResetIsIdle : Prop :=
  State.reset.phase = .idle ∧ State.reset.result = none

/-- R190: a reset in any state leaves the block idle with nothing to read, so a transaction in progress is
abandoned; and no later transaction can tell that a reset was applied. Where one was pending, that without
the reset the later one replaces it is the model's choice, log 18. -/
def Obligations.ResetIsUnobservable : Prop :=
  ∀ s : State, s.applyReset.phase = .idle ∧ s.applyReset.result = none ∧
    ∀ (cw : CmdWord) (inp : List Byte),
      (transact cw inp s.applyReset).result = (transact cw inp s).result ∧
      (transact cw inp State.reset).result = (transact cw inp s).result

/-! The converter. -/

/-- R71: `CVT58` on symbols with fewer than 5 leftover bits cuts the concatenated bits into bytes and
discards the leftover, whatever its value; an element of 32 or more is `ValueRange`, and symbols whose
number modulo 8 is 1, 3 or 6 are `IncompleteGroup`. -/
def Obligations.Cvt58RegroupsBits : Prop :=
  ∀ s : State, encode .cvt58 = 0x1000 ∧
    (allSymbols s.inp → 5 * s.inp.length % 8 < 5 →
      ∃ t, exec .cvt58 s = .next t ∧ t.result = some (.ok, regroup 5 8 false s.inp)) ∧
    (¬ allSymbols s.inp →
      ∃ t, exec .cvt58 s = .next t ∧ t.result = some (.fault .valueRange, [])) ∧
    (allSymbols s.inp → s.inp.length % 8 = 1 ∨ s.inp.length % 8 = 3 ∨ s.inp.length % 8 = 6 →
      ∃ t, exec .cvt58 s = .next t ∧ t.result = some (.fault .incompleteGroup, []))

/-- R72, R73, R74: `CVT58P` on symbols, and `CVT85` and `CVT85P` on any bytes, regroup the concatenated
bits, the padded ones with zeros on the right; `CVT58P` on an element of 32 or more is `ValueRange`, and
no other fault arises in the three. -/
def Obligations.OtherConversionsRegroupBits : Prop :=
  ∀ s : State, encode .cvt58p = 0x1001 ∧ encode .cvt85 = 0x1002 ∧ encode .cvt85p = 0x1003 ∧
    (allSymbols s.inp →
      ∃ t, exec .cvt58p s = .next t ∧ t.result = some (.ok, regroup 5 8 true s.inp)) ∧
    (¬ allSymbols s.inp →
      ∃ t, exec .cvt58p s = .next t ∧ t.result = some (.fault .valueRange, [])) ∧
    (∃ t, exec .cvt85 s = .next t ∧ t.result = some (.ok, regroup 8 5 false s.inp)) ∧
    ∃ t, exec .cvt85p s = .next t ∧ t.result = some (.ok, regroup 8 5 true s.inp)

/-- R70 to R74: the number of groups each conversion emits. -/
def Obligations.ConversionLengths : Prop :=
  ∀ s t : State, t.st = .ok →
    (exec .cvt58 s = .next t → t.out.length = 5 * s.inp.length / 8) ∧
    (exec .cvt58p s = .next t → t.out.length = (5 * s.inp.length + 7) / 8) ∧
    (exec .cvt85 s = .next t → t.out.length = 8 * s.inp.length / 5) ∧
    (exec .cvt85p s = .next t → t.out.length = (8 * s.inp.length + 4) / 5)

/-- R15, R70: after any number of input groups `NB` is below the output width and counts the leftover bits,
and `ACC` holds exactly them, the last `NB` bits of the concatenated input, whatever the registers held. -/
def Obligations.AccumulatorHoldsLeftover : Prop :=
  ∀ (f t : Nat), (f = 5 ∧ t = 8) ∨ (f = 8 ∧ t = 5) → ∀ (data : List Byte) (r r' : Run),
    cvtStream f t data { r with work := cvtInit r.work } = .ok r' →
      r'.work.nb.val < t ∧ r'.work.acc.toNat < 2 ^ r'.work.nb.val ∧
        r'.work.nb.val = f * data.length % t ∧
        r'.work.acc.toNat =
          bitsValue ((bitString f data).drop ((bitString f data).length - r'.work.nb.val))

/-- R75, first half: `CVT58` of the result of `CVT85P` on any bytes gives the bytes back. The form of the
ended state (`CW` and `IN` standing on, registers free) is the model's, logs 3 and 4. -/
def Obligations.BytesSurviveRoundTrip : Prop :=
  ∀ s : State, ∃ payload, exec .cvt85p s = .next (deliver payload s) ∧
    ∀ s' : State, s'.inp = payload → exec .cvt58 s' = .next (deliver s.inp s')

/-- R75, second half: `CVT85P` of the bytes that `CVT58` makes of a payload gives the payload with the
leftover bits of its last symbol cleared. The form of the
ended state (`CW` and `IN` standing on, registers free) is the model's, logs 3 and 4. -/
def Obligations.PayloadRoundTripClearsLeftover : Prop :=
  ∀ s : State, allSymbols s.inp → 5 * s.inp.length % 8 < 5 →
    ∃ bytes, exec .cvt58 s = .next (deliver bytes s) ∧
      ∀ s' : State, s'.inp = bytes →
        exec .cvt85p s' = .next (deliver (clearLastBits (5 * s.inp.length % 8) s.inp) s')

/-! The field. -/

/-- R86: `GFMUL` with an empty `IN` delivers the product by repeated doubling, with any `IN` it is
`BadFrame`; the rule's encoding, its corner cases and its values of the doubling step. -/
def Obligations.GfmulIsRepeatedDoubling : Prop :=
  ∀ (a b : Sym) (s : State),
    encode (.gfmul a b) = 0x2000 ||| (b.setWidth 16 <<< 5) ||| a.setWidth 16 ∧
    (s.inp = [] → ∃ t, exec (.gfmul a b) s = .next t ∧
      t.result = some (.ok, [BitVec.ofNat 8 (repeatedDoubling 41 a.toNat b.toNat)])) ∧
    (s.inp ≠ [] → ∃ t, exec (.gfmul a b) s = .next t ∧ t.result = some (.fault .badFrame, [])) ∧
    (gfmul Config.constants a b).toNat = repeatedDoubling 41 a.toNat b.toNat ∧
    repeatedDoubling 41 a.toNat b.toNat < 32 ∧
    repeatedDoubling 41 a.toNat 0 = 0 ∧ repeatedDoubling 41 0 b.toNat = 0 ∧
    repeatedDoubling 41 a.toNat 1 = a.toNat ∧ repeatedDoubling 41 1 a.toNat = a.toNat ∧
    repeatedDoubling 41 a.toNat 2 = doubleNat 41 a.toNat ∧
    (List.range 32).map (doubleNat 41) =
      [0, 2, 4, 6, 8, 10, 12, 14, 16, 18, 20, 22, 24, 26, 28, 30, 9, 11, 13, 15, 1, 3, 5, 7, 25, 27, 29,
        31, 17, 19, 21, 23]

/-- R85, R87, R191: the constants the machine runs with are valid, which includes the laws of a field of 32
elements with `INV` as its inverses. -/
def Obligations.ConstantsAreValid : Prop := ValidConstants Config.constants

/-- R87: the powers of 2 run through all non-zero elements, in the order the rule prints. -/
def Obligations.PowersOfTwo : Prop :=
  (List.range 32).map (fun n => ((gfmul Config.constants 2)^[n] 1).toNat) =
    [1, 2, 4, 8, 16, 9, 18, 13, 26, 29, 19, 15, 30, 21, 3, 6, 12, 24, 25, 27, 31, 23, 7, 14, 28, 17, 11,
      22, 5, 10, 20, 1]

/-- R16, R86, R89: `MA` is back below 32 after every reduction, which is the doubling of the rule. -/
def Obligations.ReducedMAStaysInField : Prop :=
  ∀ ma : BitVec 6, ma.toNat < 32 →
    (doubleReduce Config.constants ma).toNat < 32 ∧
      (doubleReduce Config.constants ma).toNat = doubleNat 41 ma.toNat

/-- R88: `GFINV` with an empty `IN` delivers the table's inverse of a non-zero element, whose product with
the element is 1, and faults on 0; with any `IN` it is `BadFrame`; the rule's encoding and corner cases. -/
def Obligations.GfinvReadsTheTable : Prop :=
  ∀ (a : Sym) (s : State),
    encode (.gfinv a) = 0x3000 ||| a.setWidth 16 ∧
    (s.inp = [] → a ≠ 0 →
      (∃ t, exec (.gfinv a) s = .next t ∧
        t.result = some (.ok, [symToByte (invTable Config.constants a)])) ∧
      gfmul Config.constants a (invTable Config.constants a) = 1) ∧
    (s.inp = [] → ∃ t, exec (.gfinv 0) s = .next t ∧ t.result = some (.fault .inverseOfZero, [])) ∧
    (s.inp ≠ [] → ∃ t, exec (.gfinv a) s = .next t ∧ t.result = some (.fault .badFrame, [])) ∧
    invTable Config.constants 0 = 0 ∧ invTable Config.constants 1 = 1 ∧
    invTable Config.constants (invTable Config.constants a) = a ∧
    (invTable Config.constants a = a ↔ a = 0 ∨ a = 1)

/-! The checksum engine. -/

/-- R101, R102: `PMODS` and `PMODL` on symbols, of any number, deliver the 13 and the 15 groups of the
residue computed on integers, and fault with `ValueRange` on an element of 32 or more. -/
def Obligations.PmodDeliversResidue : Prop :=
  ∀ s : State, encode .pmods = 0x4000 ∧ encode .pmodl = 0x4001 ∧
    (allSymbols s.inp →
      (∃ t, exec .pmods s = .next t ∧ t.result = some (.ok,
        groupsNat .short (polymodNat Config.constants .short (s.inp.map BitVec.toNat)))) ∧
      ∃ t, exec .pmodl s = .next t ∧ t.result = some (.ok,
        groupsNat .long (polymodNat Config.constants .long (s.inp.map BitVec.toNat)))) ∧
    (¬ allSymbols s.inp →
      (∃ t, exec .pmods s = .next t ∧ t.result = some (.fault .valueRange, [])) ∧
      ∃ t, exec .pmodl s = .next t ∧ t.result = some (.fault .valueRange, []))

/-- R17, R100: the residue register stays below 2^65 under the short code and below 2^75 under the long. -/
def Obligations.ResidueStaysInRegister : Prop :=
  ∀ (code : Code) (syms : List Sym) (w : Work),
    (polymod Config.constants code syms w).res.toNat < 2 ^ (5 * ckSymbols code)

/-- R101, R102: no feedback in the first seven (short) or nine (long) steps; until then the residue is
`INIT` followed by the symbols. -/
def Obligations.NoFeedbackInFirstSteps : Prop :=
  ∀ (code : Code) (syms : List Sym) (w : Work),
    syms.length ≤ (match code with | .short => 7 | .long => 9) →
      (polymod Config.constants code syms w).res.toNat =
        syms.foldl (fun v s => v * 32 + s.toNat) 0x23181b3

/-- R13, R14, R100: read in groups of five bits, a register step is a linear-feedback step over GF(32):
the groups move up by one with the symbol entering last, and the group shifted out, times the groups of
`GEN[0]`, is added. -/
def Obligations.RegisterIsLfsrOverField : Prop :=
  ∀ (w : Work) (s : Sym), w.res.toNat < 2 ^ (5 * ckSymbols w.code) →
    residueGroups w.code (cksStep Config.constants w s).res =
      List.zipWith (fun g e => g ^^^ gfmul Config.constants ((residueGroups w.code w.res).headD 0) e)
        ((residueGroups w.code w.res).tail ++ [s])
        (residueGroups w.code (generator Config.constants w.code 0))

/-- R103: the code by length. Content up to 80 is short, from 81 long; a whole sequence up to 93 is short,
from 96 long, 94 and 95 neither; and a content with its checksum is judged by the code that made it. -/
def Obligations.CodeByLength : Prop :=
  ∀ n : Nat,
    (contentCode Config.constants n = .short ↔ n ≤ 80) ∧
    (wholeCode Config.constants n = some .short ↔ n ≤ 93) ∧
    (wholeCode Config.constants n = some .long ↔ 96 ≤ n) ∧
    (wholeCode Config.constants n = none ↔ n = 94 ∨ n = 95) ∧
    wholeCode Config.constants (n + ckSymbols (contentCode Config.constants n)) =
      some (contentCode Config.constants n)

/-- R104: `CKSUM` on a content of up to 80 symbols delivers the 13 groups, on a longer one the 15 groups,
of the residue with zeros appended, exclusive-or the target; it faults with `ValueRange` on an element of
32 or more. -/
def Obligations.CksumDeliversChecksum : Prop :=
  ∀ s : State, encode .cksum = 0x5000 ∧
    (allSymbols s.inp → s.inp.length ≤ 80 →
      ∃ t, exec .cksum s = .next t ∧ t.result = some (.ok, groupsNat .short
        (polymodNat Config.constants .short (s.inp.map BitVec.toNat ++ List.replicate 13 0) ^^^
          0x10ce0795c2fd1e62a))) ∧
    (allSymbols s.inp → 81 ≤ s.inp.length →
      ∃ t, exec .cksum s = .next t ∧ t.result = some (.ok, groupsNat .long
        (polymodNat Config.constants .long (s.inp.map BitVec.toNat ++ List.replicate 15 0) ^^^
          0x43381e570bf4798ab26))) ∧
    (¬ allSymbols s.inp →
      ∃ t, exec .cksum s = .next t ∧ t.result = some (.fault .valueRange, []))

/-- R105: `VERIFY` on symbols delivers 1 exactly when the residue under the code of its length is that
code's target; for lengths 94 and 95 it delivers 0; it faults with `ValueRange` on an element of 32 or
more, and in no other case. -/
def Obligations.VerifyComparesResidue : Prop :=
  ∀ s : State, encode .verify = 0x6000 ∧
    (allSymbols s.inp → s.inp.length ≤ 93 →
      ∃ t, exec .verify s = .next t ∧ t.result = some (.ok,
        [if polymodNat Config.constants .short (s.inp.map BitVec.toNat) = 0x10ce0795c2fd1e62a
          then 1 else 0])) ∧
    (allSymbols s.inp → 96 ≤ s.inp.length →
      ∃ t, exec .verify s = .next t ∧ t.result = some (.ok,
        [if polymodNat Config.constants .long (s.inp.map BitVec.toNat) = 0x43381e570bf4798ab26
          then 1 else 0])) ∧
    (allSymbols s.inp → s.inp.length = 94 ∨ s.inp.length = 95 →
      ∃ t, exec .verify s = .next t ∧ t.result = some (.ok, [0])) ∧
    (¬ allSymbols s.inp →
      ∃ t, exec .verify s = .next t ∧ t.result = some (.fault .valueRange, []))

/-- R106: for every content of symbols, `VERIFY` of the content followed by what `CKSUM` delivers for it
answers 1. The form of the
ended state (`CW` and `IN` standing on, registers free) is the model's, logs 3 and 4. -/
def Obligations.ChecksummedContentVerifies : Prop :=
  ∀ s : State, allSymbols s.inp → ∃ k, exec .cksum s = .next (deliver k s) ∧
    ∀ s' : State, s'.inp = s.inp ++ k → exec .verify s' = .next (deliver [1] s')

/-- C7, R106: for a sequence on which `VERIFY` answers 1, changing any one symbol to any other answers 0. The form of the
ended state (`CW` and `IN` standing on, registers free) is the model's, logs 3 and 4. -/
def Obligations.SingleSymbolChangeDetected : Prop :=
  ∀ (s s' : State) (p : Nat) (v : Byte), exec .verify s = .next (deliver [1] s) →
    p < s.inp.length → v.toNat < 32 → s.inp[p]? ≠ some v → s'.inp = s.inp.set p v →
      exec .verify s' = .next (deliver [0] s')

/-! The interpolator. -/

/-- R122: `LAGW` makes the checks of R125 in their order, and on distinct symbols, the target not among
them, delivers the weights of the closed form of R121. -/
def Obligations.LagwDeliversWeights : Prop :=
  ∀ (x : Sym) (s : State),
    encode (.lagw x) = 0x7000 ||| x.setWidth 16 ∧
    (s.inp = [] → ∃ t, exec (.lagw x) s = .next t ∧ t.result = some (.fault .badFrame, [])) ∧
    (s.inp ≠ [] → ¬ allSymbols s.inp →
      ∃ t, exec (.lagw x) s = .next t ∧ t.result = some (.fault .valueRange, [])) ∧
    (allSymbols s.inp → ¬ (s.inp.map byteToSym).Nodup →
      ∃ t, exec (.lagw x) s = .next t ∧ t.result = some (.fault .duplicateShareIndex, [])) ∧
    (allSymbols s.inp → (s.inp.map byteToSym).Nodup → x ∈ s.inp.map byteToSym →
      ∃ t, exec (.lagw x) s = .next t ∧ t.result = some (.fault .targetIndexPresent, [])) ∧
    (s.inp ≠ [] → allSymbols s.inp → (s.inp.map byteToSym).Nodup → x ∉ s.inp.map byteToSym →
      ∃ t, exec (.lagw x) s = .next t ∧ t.result = some (.ok,
        (lagrangeWeights Config.constants x (s.inp.map byteToSym)).map symToByte))

/-- R121, R191: under any constants with the properties of R191, on points that pass the checks the
registers' arrangement leaves the weights of the closed form in `WT`, whatever they held. -/
def Obligations.ArrangementGivesClosedForm : Prop :=
  ∀ (c : Constants), ValidConstants c → ∀ (x : Sym) (xs : List Sym) (w : Work), xs.Nodup → x ∉ xs →
    (weightsRun c (lgrLoad x xs w)).wt = lagrangeWeights c x xs

/-- R121: outside the checks the two forms differ: with the target among distinct points the closed form
gives that point weight 1 and the others 0, the arrangement gives all weights 0. -/
def Obligations.FormsDifferAtPresentTarget : Prop :=
  ∀ (x : Sym) (xs : List Sym) (w : Work), xs.Nodup → x ∈ xs →
    lagrangeWeights Config.constants x xs = xs.map (fun y => if y = x then 1 else 0) ∧
    (weightsRun Config.constants (lgrLoad x xs w)).wt = List.replicate xs.length 0

/-- R121, Property: the exclusive-or of all weights is 1. -/
def Obligations.WeightsXorToOne : Prop :=
  ∀ (x : Sym) (xs : List Sym), xs ≠ [] → xs.Nodup → x ∉ xs →
    xorAll (lagrangeWeights Config.constants x xs) = 1

/-- R37, R120, R123, R125: `INTERP` makes the checks of R125 in their order, and on a framed stream of
symbols with distinct x-coordinates, the target not among them, delivers at each position the exclusive-or
of the weighted symbols of that position. -/
def Obligations.InterpDeliversVector : Prop :=
  ∀ (k x : Sym) (s : State),
    encode (.interp k x) = 0x8000 ||| (k.setWidth 16 <<< 5) ||| x.setWidth 16 ∧
    (k = 0 ∨ s.inp = [] ∨ s.inp.length % k.toNat ≠ 0 ∨ s.inp.length / k.toNat < 6 →
      ∃ t, exec (.interp k x) s = .next t ∧ t.result = some (.fault .badFrame, [])) ∧
    (1 ≤ k.toNat → s.inp.length % k.toNat = 0 → 6 ≤ s.inp.length / k.toNat →
      (¬ allSymbols s.inp →
        ∃ t, exec (.interp k x) s = .next t ∧ t.result = some (.fault .valueRange, [])) ∧
      (allSymbols s.inp → ¬ ((interpVectors k s.inp).map xCoordinate).Nodup →
        ∃ t, exec (.interp k x) s = .next t ∧ t.result = some (.fault .duplicateShareIndex, [])) ∧
      (allSymbols s.inp → ((interpVectors k s.inp).map xCoordinate).Nodup →
        x ∈ (interpVectors k s.inp).map xCoordinate →
        ∃ t, exec (.interp k x) s = .next t ∧ t.result = some (.fault .targetIndexPresent, [])) ∧
      (allSymbols s.inp → ((interpVectors k s.inp).map xCoordinate).Nodup →
        x ∉ (interpVectors k s.inp).map xCoordinate →
        ∃ t, exec (.interp k x) s = .next t ∧ t.result = some (.ok,
          (List.range (s.inp.length / k.toNat)).map fun i =>
            symToByte (interpolatedAt Config.constants x (interpVectors k s.inp) i))))

/-- R123 ("Given more vectors than the threshold, all lying on one polynomial of degree below the
threshold, the result is the same as with any threshold-sized subset"): where a position of the `K` vectors
holds the values of one polynomial of degree below `K` at their x-coordinates, the result holds there its
value at the target. -/
def Obligations.PolynomialIsRecovered : Prop :=
  ∀ (k x : Sym) (s t : State), exec (.interp k x) s = .next t → t.st = .ok →
    ∀ (i : Nat) (coeffs : List Sym), i < s.inp.length / k.toNat → coeffs.length ≤ k.toNat →
      (∀ v ∈ interpVectors k s.inp,
        v.getD i 0 = polynomialAt Config.constants coeffs (xCoordinate v)) →
      t.out[i]? = some (symToByte (polynomialAt Config.constants coeffs x))

/-- R123, corner case K = 1: the result is the input vector unchanged, whatever the target. The form of the
ended state (`CW` and `IN` standing on, registers free) is the model's, logs 3 and 4. -/
def Obligations.SingleVectorComesBack : Prop :=
  ∀ (x : Sym) (s : State), 6 ≤ s.inp.length → allSymbols s.inp → s.inp[5]? ≠ some (symToByte x) →
    exec (.interp 1 x) s = .next (deliver s.inp s)

/-- R123, corner case: a position at which all vectors hold the same value holds it in the result, so the
threshold digit and the id pass through. -/
def Obligations.AgreedPositionsPassThrough : Prop :=
  ∀ (k x : Sym) (s t : State), exec (.interp k x) s = .next t → t.st = .ok →
    ∀ (i : Nat) (v : Byte), i < s.inp.length / k.toNat →
      (∀ j, j < k.toNat → s.inp[j * (s.inp.length / k.toNat) + i]? = some v) → t.out[i]? = some v

/-- R123, R124, corner case K >= 2: the result's position 5 is the target. -/
def Obligations.IndexPositionIsTarget : Prop :=
  ∀ (k x : Sym) (s t : State), 2 ≤ k.toNat → exec (.interp k x) s = .next t → t.st = .ok →
    t.out[5]? = some (symToByte x)

/-- R126: lane `i` of the result depends only on lane `i` and lane 5 of the vectors and on the target. -/
def Obligations.LanesAreIndependent : Prop :=
  ∀ (k x : Sym) (s s' t t' : State) (i : Nat), s.inp.length = s'.inp.length →
    exec (.interp k x) s = .next t → t.st = .ok → exec (.interp k x) s' = .next t' → t'.st = .ok →
    i < s.inp.length / k.toNat →
    (∀ j, j < k.toNat →
      s.inp[j * (s.inp.length / k.toNat) + 5]? = s'.inp[j * (s.inp.length / k.toNat) + 5]? ∧
      s.inp[j * (s.inp.length / k.toNat) + i]? = s'.inp[j * (s.inp.length / k.toNat) + i]?) →
    t.out[i]? = t'.out[i]?

/-- V-S2d, R121, R123: the order of the vectors in `IN` is immaterial, to the status and to the result. -/
def Obligations.VectorOrderImmaterial : Prop :=
  ∀ (k x : Sym) (s s' t t' : State), s.inp.length = s'.inp.length → allSymbols s.inp →
    allSymbols s'.inp → (interpVectors k s.inp).Perm (interpVectors k s'.inp) →
    exec (.interp k x) s = .next t → exec (.interp k x) s' = .next t' →
      t.st = t'.st ∧ t.out = t'.out

/-- R123, R168 ("deriving a new share then recombining any T-subset including the derived one still yields
the same secret"): replacing one of at least two vectors by the vector derived from them changes no later
interpolation that completes. -/
def Obligations.DerivedShareRecombines : Prop :=
  ∀ (k d x : Sym) (m : Nat) (s s' t u v : State), 2 ≤ k.toNat → m < k.toNat →
    exec (.interp k d) s = .next t → t.st = .ok →
    exec (.interp k x) s = .next u → u.st = .ok →
    s'.inp = replaceVector k m t.out s.inp →
    exec (.interp k x) s' = .next v → v.st = .ok → u.out = v.out

/-- R12, R192, C4: no transaction reads `INV[0]`: with any other value there the three commands that read
the table run alike, registers and faults included. -/
def Obligations.InverseOfZeroNeverRead : Prop :=
  ∀ (z a k x : Sym) (inp : List Byte) (r : Run),
    let c := Config.constants
    let c' : Constants := { c with inv := c.inv.set 0 z }
    gfinvRun c' a inp r = gfinvRun c a inp r ∧
    lagwRun c' x inp r = lagwRun c x inp r ∧
    interpRun c' k x inp r = interpRun c k x inp r

/-! The length of the stream. -/

/-- R3 (`MAX_LEN` OPEN, "the largest number of elements in `IN`"): for every bound, and for none, a
transaction is issued exactly when its stream is within it, and a host script gives each such transaction the
answer it gives alone. That an entry with a longer stream is passed over without a result is the model's
choice, log 7, and that a pending transaction is replaced is log 18's. -/
def Obligations.BoundedScriptAnswersAllowed : Prop :=
  ∀ maxLen : Option Nat,
    (∀ (cw : CmdWord) (inp : List Byte) (s : State),
      (∃ t, s.issueWithin maxLen cw inp = some t ∧ t.phase = .issued ∧ t.cw = cw ∧ t.inp = inp) ↔
        ∀ m, maxLen = some m → inp.length ≤ m) ∧
    ∀ (script : List (CmdWord × List Byte)) (s : State),
      runScriptWithin maxLen script s = script.map fun t =>
        if lengthAllowed maxLen t.2.length then some (transactionAnswer Config.constants t.1 t.2) else none
end

