-- ==== Sys2Proof/Laws/State.lean ====
section
/-! SUPPORT. The updates of the state, field by field: one lemma per field per update, true by rfl, so
that no later proof unfolds a record update. -/

namespace Sys2Proof.Machine

/-! The end of a transaction. -/

@[simp] theorem endTransaction_phase (st : Status) (out : List Byte) (s : State) : (endTransaction st out s).phase = .complete := rfl
@[simp] theorem endTransaction_cw (st : Status) (out : List Byte) (s : State) : (endTransaction st out s).cw = s.cw := rfl
@[simp] theorem endTransaction_inp (st : Status) (out : List Byte) (s : State) : (endTransaction st out s).inp = s.inp := rfl
@[simp] theorem endTransaction_out (st : Status) (out : List Byte) (s : State) : (endTransaction st out s).out = out := rfl
@[simp] theorem endTransaction_st (st : Status) (out : List Byte) (s : State) : (endTransaction st out s).st = st := rfl
@[simp] theorem endTransaction_work (st : Status) (out : List Byte) (s : State) : (endTransaction st out s).work = Config.leftoverRegisters s.freeCount := rfl
@[simp] theorem endTransaction_freeCount (st : Status) (out : List Byte) (s : State) : (endTransaction st out s).freeCount = s.freeCount + 1 := rfl

@[simp] theorem deliver_phase (out : List Byte) (s : State) : (deliver out s).phase = .complete := rfl
@[simp] theorem deliver_cw (out : List Byte) (s : State) : (deliver out s).cw = s.cw := rfl
@[simp] theorem deliver_inp (out : List Byte) (s : State) : (deliver out s).inp = s.inp := rfl
@[simp] theorem deliver_out (out : List Byte) (s : State) : (deliver out s).out = out := rfl
@[simp] theorem deliver_st (out : List Byte) (s : State) : (deliver out s).st = .ok := rfl
@[simp] theorem deliver_work (out : List Byte) (s : State) : (deliver out s).work = Config.leftoverRegisters s.freeCount := rfl
@[simp] theorem deliver_freeCount (out : List Byte) (s : State) : (deliver out s).freeCount = s.freeCount + 1 := rfl

@[simp] theorem raise_phase (f : BlockFault) (s : State) : (raise f s).phase = .complete := rfl
@[simp] theorem raise_cw (f : BlockFault) (s : State) : (raise f s).cw = s.cw := rfl
@[simp] theorem raise_inp (f : BlockFault) (s : State) : (raise f s).inp = s.inp := rfl
@[simp] theorem raise_out (f : BlockFault) (s : State) : (raise f s).out = [] := rfl
@[simp] theorem raise_st (f : BlockFault) (s : State) : (raise f s).st = .fault f := rfl
@[simp] theorem raise_work (f : BlockFault) (s : State) : (raise f s).work = Config.leftoverRegisters s.freeCount := rfl
@[simp] theorem raise_freeCount (f : BlockFault) (s : State) : (raise f s).freeCount = s.freeCount + 1 := rfl

theorem deliver_eq (out : List Byte) (s : State) : deliver out s = endTransaction .ok out s := rfl

theorem raise_eq (f : BlockFault) (s : State) : raise f s = endTransaction (.fault f) [] s := rfl

theorem rejectWord_eq (e : DecodeError) (s : State) : rejectWord e s = raise .illegalCommand s := rfl

@[simp] theorem rest_eq (s : State) : rest s = s := rfl

@[simp] theorem fetchWord_eq (s : State) : fetchWord s = s.cw := rfl

/-! The host's actions. -/

/-- All that issuing under a bound can do. -/
theorem issueWithin_eq_some {maxLen : Option Nat} {cw : CmdWord} {inp : List Byte} {s t : State} :
    s.issueWithin maxLen cw inp = some t ↔
      lengthAllowed maxLen inp.length = true ∧ t = { s with phase := .issued, cw := cw, inp := inp } := by
  rw [State.issueWithin]
  split
  · next h => exact ⟨fun e => ⟨h, (Option.some.inj e).symm⟩, fun e => congrArg some e.2.symm⟩
  · next h => exact ⟨nofun, fun e => absurd e.1 h⟩

@[simp] theorem issueWithin_none (cw : CmdWord) (inp : List Byte) (s : State) :
    s.issueWithin none cw inp = some { s with phase := .issued, cw := cw, inp := inp } := rfl

@[simp] theorem lengthAllowed_none (len : Nat) : lengthAllowed none len = true := rfl

@[simp] theorem lengthAllowed_some (m len : Nat) : lengthAllowed (some m) len = true ↔ len ≤ m := by
  simp [lengthAllowed]

theorem transact_eq (cw : CmdWord) (inp : List Byte) (s : State) :
    transact cw inp s = stepState (s.issue cw inp) := rfl

theorem runScript_eq (script : List (CmdWord × List Byte)) (s : State) :
    runScript script s = runScriptWithin none script s := rfl

@[simp] theorem runScriptWithin_nil (maxLen : Option Nat) (s : State) :
    runScriptWithin maxLen [] s = [] := rfl

@[simp] theorem issue_phase (cw : CmdWord) (inp : List Byte) (s : State) : (s.issue cw inp).phase = .issued := rfl
@[simp] theorem issue_cw (cw : CmdWord) (inp : List Byte) (s : State) : (s.issue cw inp).cw = cw := rfl
@[simp] theorem issue_inp (cw : CmdWord) (inp : List Byte) (s : State) : (s.issue cw inp).inp = inp := rfl
@[simp] theorem issue_out (cw : CmdWord) (inp : List Byte) (s : State) : (s.issue cw inp).out = s.out := rfl
@[simp] theorem issue_st (cw : CmdWord) (inp : List Byte) (s : State) : (s.issue cw inp).st = s.st := rfl
@[simp] theorem issue_work (cw : CmdWord) (inp : List Byte) (s : State) : (s.issue cw inp).work = s.work := rfl
@[simp] theorem issue_freeCount (cw : CmdWord) (inp : List Byte) (s : State) : (s.issue cw inp).freeCount = s.freeCount := rfl

@[simp] theorem withFetchWord_phase (s : State) (nbits w : Nat) : (s.withFetchWord nbits w).phase = .issued := rfl
@[simp] theorem withFetchWord_cw (s : State) (nbits w : Nat) : (s.withFetchWord nbits w).cw = BitVec.ofNat 16 (w % 2 ^ nbits) := rfl
@[simp] theorem withFetchWord_inp (s : State) (nbits w : Nat) : (s.withFetchWord nbits w).inp = s.inp := rfl
@[simp] theorem withFetchWord_out (s : State) (nbits w : Nat) : (s.withFetchWord nbits w).out = s.out := rfl
@[simp] theorem withFetchWord_st (s : State) (nbits w : Nat) : (s.withFetchWord nbits w).st = s.st := rfl
@[simp] theorem withFetchWord_work (s : State) (nbits w : Nat) : (s.withFetchWord nbits w).work = s.work := rfl
@[simp] theorem withFetchWord_freeCount (s : State) (nbits w : Nat) : (s.withFetchWord nbits w).freeCount = s.freeCount := rfl

@[simp] theorem applyReset_phase (s : State) : (s.applyReset).phase = .idle := rfl
@[simp] theorem applyReset_cw (s : State) : (s.applyReset).cw = 0 := rfl
@[simp] theorem applyReset_inp (s : State) : (s.applyReset).inp = [] := rfl
@[simp] theorem applyReset_out (s : State) : (s.applyReset).out = [] := rfl
@[simp] theorem applyReset_st (s : State) : (s.applyReset).st = .ok := rfl
@[simp] theorem applyReset_work (s : State) : (s.applyReset).work = Config.leftoverRegisters s.freeCount := rfl
@[simp] theorem applyReset_freeCount (s : State) : (s.applyReset).freeCount = s.freeCount + 1 := rfl

/-! What the host reads. -/

@[simp] theorem result_endTransaction (st : Status) (out : List Byte) (s : State) :
    (endTransaction st out s).result = some (st, out) := rfl

@[simp] theorem result_issue (cw : CmdWord) (inp : List Byte) (s : State) :
    (s.issue cw inp).result = none := rfl

@[simp] theorem result_applyReset (s : State) : s.applyReset.result = none := rfl

/-! The run of a command. -/

@[simp] theorem start_work (s : State) : s.start.work = s.work := rfl

@[simp] theorem start_out (s : State) : s.start.out = [] := rfl

@[simp] theorem emit_work (v : Byte) (r : Run) : (emit v r).work = r.work := rfl

@[simp] theorem emit_out (v : Byte) (r : Run) : (emit v r).out = r.out ++ [v] := rfl

@[simp] theorem emitAll_work (vs : List Byte) (r : Run) : (emitAll vs r).work = r.work := rfl

@[simp] theorem emitAll_out (vs : List Byte) (r : Run) : (emitAll vs r).out = r.out ++ vs := rfl

@[simp] theorem conclude_ok (r : Run) (s : State) : conclude (.ok r) s = .next (deliver r.out s) := rfl

@[simp] theorem conclude_error (f : BlockFault) (s : State) :
    conclude (.error f) s = .next (raise f s) := rfl

end Sys2Proof.Machine
end

