-- ==== Sys2Proof/Laws/Operands.lean ====
section
/-! SUPPORT. What each shared operation of `Machine/Ops.lean` and `Machine/Operands.lean` can do, said
once. -/

namespace Sys2Proof.Machine

/-- A command's run ends the transaction with `OK` and its output, or with one fault and no output. -/
theorem conclude_cases (o : Except BlockFault Run) (s : State) :
    (∃ r, o = .ok r ∧ conclude o s = .next (endTransaction .ok r.out s)) ∨
      (∃ f, o = .error f ∧ conclude o s = .next (endTransaction (.fault f) [] s)) := by
  cases o with
  | ok r => exact .inl ⟨r, rfl, rfl⟩
  | error f => exact .inr ⟨f, rfl, rfl⟩

/-- `conclude` looks at a run's output alone: two runs with the same faults and outputs end a transaction
alike. -/
theorem conclude_congr {o o' : Except BlockFault Run} (s : State)
    (h : o.map Run.out = o'.map Run.out) : conclude o s = conclude o' s := by
  cases o <;> cases o' <;> simp [Except.map] at h <;> simp [h]

theorem symbolInRange_iff (v : Byte) : symbolInRange v = true ↔ v.toNat < 32 :=
  decide_eq_true_iff

theorem readSymbols_ok {inp : List Byte} (h : ∀ v ∈ inp, v.toNat < 32) :
    readSymbols inp = .ok (inp.map byteToSym) := by
  have : inp.all symbolInRange = true := by
    simpa [List.all_eq_true, symbolInRange_iff] using h
  simp [readSymbols, this]

theorem readSymbols_error {inp : List Byte} (h : ∃ v ∈ inp, 32 ≤ v.toNat) :
    readSymbols inp = .error .valueRange := by
  have : ¬ inp.all symbolInRange = true := by
    obtain ⟨v, hv, hr⟩ := h
    simp only [List.all_eq_true, symbolInRange_iff, not_forall]
    exact ⟨v, hv, by omega⟩
  simp [readSymbols, this]

/-- A symbol stream is read whole or is `ValueRange`. -/
theorem readSymbols_cases (inp : List Byte) :
    ((∀ v ∈ inp, v.toNat < 32) ∧ readSymbols inp = .ok (inp.map byteToSym)) ∨
      ((∃ v ∈ inp, 32 ≤ v.toNat) ∧ readSymbols inp = .error .valueRange) := by
  by_cases h : ∀ v ∈ inp, v.toNat < 32
  · exact .inl ⟨h, readSymbols_ok h⟩
  · have h' : ∃ v ∈ inp, 32 ≤ v.toNat := by
      push Not at h
      exact h
    exact .inr ⟨h', readSymbols_error h'⟩

@[simp] theorem symToByte_toNat (v : Sym) : (symToByte v).toNat = v.toNat := by
  have := v.isLt
  simp only [symToByte, BitVec.toNat_setWidth]
  omega

theorem symToByte_lt (v : Sym) : (symToByte v).toNat < 32 := by
  simpa using v.isLt

theorem byteToSym_toNat {v : Byte} (h : v.toNat < 32) : (byteToSym v).toNat = v.toNat := by
  simp only [byteToSym, BitVec.toNat_setWidth]
  omega

@[simp] theorem byteToSym_symToByte (v : Sym) : byteToSym (symToByte v) = v := by
  apply BitVec.eq_of_toNat_eq
  rw [byteToSym_toNat (symToByte_lt v), symToByte_toNat]

theorem symToByte_byteToSym {v : Byte} (h : v.toNat < 32) : symToByte (byteToSym v) = v := by
  apply BitVec.eq_of_toNat_eq
  rw [symToByte_toNat, byteToSym_toNat h]

theorem hasRepeat_iff (xs : List Sym) : hasRepeat xs = true ↔ ¬ xs.Nodup := by
  induction xs with
  | nil => simp [hasRepeat]
  | cons x rest ih =>
    simp only [hasRepeat, Bool.or_eq_true, List.contains_iff_mem, ih, List.nodup_cons]
    tauto

theorem interpFrame_iff (k : Sym) (inp : List Byte) :
    interpFrame k inp = true ↔
      1 ≤ k.toNat ∧ 1 ≤ inp.length ∧ inp.length % k.toNat = 0 ∧ 6 ≤ inp.length / k.toNat := by
  have h : decide (Config.hdrLen ≤ inp.length / k.toNat) = true ↔ 6 ≤ inp.length / k.toNat :=
    decide_eq_true_iff
  simp only [interpFrame, Bool.and_eq_true, decide_eq_true_eq, beq_iff_eq, and_assoc, h]

@[simp] theorem vectors_length (k n : Nat) (syms : List Sym) : (vectors k n syms).length = k := by
  simp [vectors]

theorem vectorAt_length {k n j : Nat} {syms : List Sym} (hlen : syms.length = k * n) (hj : j < k) :
    (vectorAt n syms j).length = n := by
  have : (j + 1) * n ≤ k * n := Nat.mul_le_mul_right n hj
  simp only [vectorAt, List.length_take, List.length_drop, hlen]
  have : j * n + n ≤ k * n := by simpa [Nat.add_mul] using this
  omega

end Sys2Proof.Machine
end

