-- ==== Sys2Proof/Laws/Checksum.lean ====
section
/-! SUPPORT. The checksum register: what a step and a whole residue do to the registers, said once. -/

namespace Sys2Proof.Machine

/-- One feedback term (R100). -/
def feedbackTerm (c : Constants) (code : Code) (top : Sym) (i : Fin 5) : BitVec 75 :=
  if top.getLsbD i.val then generator c code i else 0

/-- The five feedback terms of R100 as one value: the exclusive-or of the generators that the bits of
`TOP` select. -/
def feedback (c : Constants) (code : Code) (top : Sym) : BitVec 75 :=
  feedbackTerm c code top 0 ^^^ feedbackTerm c code top 1 ^^^ feedbackTerm c code top 2 ^^^
    feedbackTerm c code top 3 ^^^ feedbackTerm c code top 4

/-- The five bits a step shifts out of a register value (R100). -/
def topOf (code : Code) (res : BitVec 75) : Sym := (res >>> (regWidth code - 5)).setWidth 5

/-- The register value after the shift of a step (R100). -/
def shifted (code : Code) (res : BitVec 75) (s : Sym) : BitVec 75 :=
  ((res &&& BitVec.ofNat 75 (2 ^ (regWidth code - 5) - 1)) <<< 5) ||| s.setWidth 75

/-- The register value after a step (R100). -/
def residueStep (c : Constants) (code : Code) (res : BitVec 75) (s : Sym) : BitVec 75 :=
  shifted code res s ^^^ feedback c code (topOf code res)

/-- The residue of a sequence as a value (R100). -/
def residue (c : Constants) (code : Code) (syms : List Sym) : BitVec 75 :=
  syms.foldl (residueStep c code) (c.init.setWidth 75)

theorem cksFeedback_eq (c : Constants) (w : Work) (i : Fin 5) :
    cksFeedback c w i = { w with res := w.res ^^^ feedbackTerm c w.code w.top i } := by
  simp only [cksFeedback, feedbackTerm]
  split
  · rfl
  · have h0 : w.res ^^^ (0 : BitVec 75) = w.res := BitVec.xor_zero
    rw [h0]

/-- A step of the checksum register changes `TOP` and `RES` only, and reads `RES` and the mode only. -/
theorem cksStep_eq (c : Constants) (w : Work) (s : Sym) :
    cksStep c w s =
      { w with top := topOf w.code w.res, res := residueStep c w.code w.res s } := by
  have h : residueStep c w.code w.res s = ((((shifted w.code w.res s ^^^
      feedbackTerm c w.code (topOf w.code w.res) 0) ^^^
      feedbackTerm c w.code (topOf w.code w.res) 1) ^^^
      feedbackTerm c w.code (topOf w.code w.res) 2) ^^^
      feedbackTerm c w.code (topOf w.code w.res) 3) ^^^
      feedbackTerm c w.code (topOf w.code w.res) 4 := by
    simp only [residueStep, feedback, BitVec.xor_assoc]
  rw [h]
  simp only [cksStep, List.foldl_cons, List.foldl_nil, cksFeedback_eq]
  rfl

/-- Steps over a sequence keep every register but `TOP` and `RES`, and compute the residue of the
values. -/
theorem foldl_cksStep (c : Constants) (syms : List Sym) (w : Work) :
    ∃ top, syms.foldl (cksStep c) w =
      { w with top := top, res := syms.foldl (residueStep c w.code) w.res } := by
  induction syms generalizing w with
  | nil => exact ⟨w.top, rfl⟩
  | cons s rest ih =>
    obtain ⟨top, h⟩ := ih (cksStep c w s)
    rw [cksStep_eq] at h
    exact ⟨top, by rw [List.foldl_cons, cksStep_eq, h]; rfl⟩

/-- A residue computation changes `TOP`, `RES` and the mode only, and leaves the residue in `RES`,
whatever the registers held. -/
theorem polymod_eq (c : Constants) (code : Code) (syms : List Sym) (w : Work) :
    ∃ top, polymod c code syms w =
      { w with code := code, top := top, res := residue c code syms } := by
  obtain ⟨top, h⟩ := foldl_cksStep c syms (cksInit c code w)
  exact ⟨top, by rw [polymod, h]; rfl⟩

@[simp] theorem polymod_res (c : Constants) (code : Code) (syms : List Sym) (w : Work) :
    (polymod c code syms w).res = residue c code syms := by
  obtain ⟨top, h⟩ := polymod_eq c code syms w
  rw [h]

@[simp] theorem residueGroups_length (code : Code) (res : BitVec 75) :
    (residueGroups code res).length = ckSymbols code := by
  simp [residueGroups]

/-- All that `PMODS` and `PMODL` can do. -/
theorem pmodRun_cases (c : Constants) (code : Code) (inp : List Byte) (r : Run) :
    ((∀ v ∈ inp, v.toNat < 32) ∧ (pmodRun c code inp r).map Run.out =
        .ok (r.out ++ (residueGroups code (residue c code (inp.map byteToSym))).map symToByte)) ∨
      ((∃ v ∈ inp, 32 ≤ v.toNat) ∧ pmodRun c code inp r = .error .valueRange) := by
  rcases readSymbols_cases inp with ⟨h, hr⟩ | ⟨h, hr⟩
  · exact .inl ⟨h, by simp [pmodRun, hr, Except.map, emitResidue]⟩
  · exact .inr ⟨h, by simp [pmodRun, hr]⟩

/-- All that `CKSUM` can do. -/
theorem cksumRun_cases (c : Constants) (inp : List Byte) (r : Run) :
    ((∀ v ∈ inp, v.toNat < 32) ∧ (cksumRun c inp r).map Run.out =
        .ok (r.out ++ (residueGroups (contentCode c inp.length)
          (residue c (contentCode c inp.length) (inp.map byteToSym ++
            List.replicate (ckSymbols (contentCode c inp.length)) 0) ^^^
            target c (contentCode c inp.length))).map symToByte)) ∨
      ((∃ v ∈ inp, 32 ≤ v.toNat) ∧ cksumRun c inp r = .error .valueRange) := by
  rcases readSymbols_cases inp with ⟨h, hr⟩ | ⟨h, hr⟩
  · exact .inl ⟨h, by simp [cksumRun, hr, Except.map, emitResidue]⟩
  · exact .inr ⟨h, by simp [cksumRun, hr]⟩

/-- All that `VERIFY` can do. -/
theorem verifyRun_cases (c : Constants) (inp : List Byte) (r : Run) :
    ((∀ v ∈ inp, v.toNat < 32) ∧ wholeCode c inp.length = none ∧
        (verifyRun c inp r).map Run.out = .ok (r.out ++ [0])) ∨
      (∃ code, (∀ v ∈ inp, v.toNat < 32) ∧ wholeCode c inp.length = some code ∧
        (verifyRun c inp r).map Run.out = .ok (r.out ++
          [if residue c code (inp.map byteToSym) = target c code then 1 else 0])) ∨
      ((∃ v ∈ inp, 32 ≤ v.toNat) ∧ verifyRun c inp r = .error .valueRange) := by
  rcases readSymbols_cases inp with ⟨h, hr⟩ | ⟨h, hr⟩
  · cases hc : wholeCode c inp.length with
    | none => exact .inl ⟨h, rfl, by simp [verifyRun, hr, hc, Except.map]⟩
    | some code => exact .inr (.inl ⟨code, h, rfl, by simp [verifyRun, hr, hc, Except.map]⟩)
  · exact .inr (.inr ⟨h, by simp [verifyRun, hr]⟩)

end Sys2Proof.Machine
end

