-- ==== Sys2Proof/Laws/Codec.lean ====
section
/-! SUPPORT. The converter: it reads no register but `ACC` and `NB`, both set at its start, and it only
appends to the output. -/

namespace Sys2Proof.Machine

/-- A run with other registers than `ACC` and `NB`, and with other output before its own. -/
def transplant (w : Work) (before : List Byte) (r : Run) : Run :=
  { work := { w with acc := r.work.acc, nb := r.work.nb }, out := before ++ r.out }

theorem cvtEmitGroup_transplant (t : Nat) (w : Work) (before : List Byte) (r : Run) :
    cvtEmitGroup t (transplant w before r) = transplant w before (cvtEmitGroup t r) := by
  simp [cvtEmitGroup, transplant, emit]

theorem cvtDrain_transplant (t rounds : Nat) (w : Work) (before : List Byte) (r : Run) :
    cvtDrain t rounds (transplant w before r) = transplant w before (cvtDrain t rounds r) := by
  induction rounds generalizing r with
  | zero => rfl
  | succ n ih =>
    simp only [cvtDrain, cvtEmitGroup_transplant]
    by_cases h : t ≤ r.work.nb.val
    · simpa [transplant, h] using ih (cvtEmitGroup t r)
    · simp [transplant, h]

theorem cvtGroup_transplant (f t : Nat) (v : Byte) (w : Work) (before : List Byte) (r : Run) :
    cvtGroup f t v (transplant w before r) = transplant w before (cvtGroup f t v r) :=
  cvtDrain_transplant t _ w before { r with work := cvtShiftIn f v r.work }

theorem cvtStream_transplant (f t : Nat) (data : List Byte) (w : Work) (before : List Byte) (r : Run) :
    cvtStream f t data (transplant w before r) = (cvtStream f t data r).map (transplant w before) := by
  induction data generalizing r with
  | nil => rfl
  | cons v rest ih =>
    simp only [cvtStream, cvtGroup_transplant, ih]
    split <;> rfl

theorem cvtEnd_transplant (f t : Nat) (pad : Bool) (w : Work) (before : List Byte) (r : Run) :
    cvtEnd f t pad (transplant w before r) = (cvtEnd f t pad r).map (transplant w before) := by
  have hnb : (transplant w before r).work.nb = r.work.nb := rfl
  cases pad with
  | true =>
    by_cases h : 0 < r.work.nb.val
    · simp only [cvtEnd, hnb, if_pos h, if_true, Except.map]
      simp [transplant, emit]
    · simp only [cvtEnd, hnb, if_neg h, if_true, Except.map]
  | false =>
    by_cases h : f ≤ r.work.nb.val
    · simp only [cvtEnd, hnb, if_pos h, Bool.false_eq_true, if_false, Except.map]
    · simp only [cvtEnd, hnb, if_neg h, Bool.false_eq_true, if_false, Except.map]

/-- A conversion depends on its data alone: the registers it starts from do not matter, and what was
emitted before stays before. -/
theorem convertRun_out (f t : Nat) (pad : Bool) (data : List Byte) (r : Run) :
    (convertRun f t pad data r).map Run.out =
      (convertRun f t pad data { work := Work.zero, out := [] }).map (fun r' => r.out ++ r'.out) := by
  have h : ({ r with work := cvtInit r.work } : Run) =
      transplant r.work r.out { work := cvtInit Work.zero, out := [] } := by
    simp [transplant, cvtInit]
  simp only [convertRun, h, cvtStream_transplant]
  cases cvtStream f t data { work := cvtInit Work.zero, out := [] } with
  | error e => rfl
  | ok r' =>
    simp only [Except.map, cvtEnd_transplant]
    cases cvtEnd f t pad r' with
    | error e => rfl
    | ok r'' => rfl

/-- One output group lowers `NB` by `t`. -/
theorem cvtEmitGroup_nb {t : Nat} {r : Run} (h : t ≤ r.work.nb.val) :
    (cvtEmitGroup t r).work.nb.val = r.work.nb.val - t := by
  have := r.work.nb.isLt
  simp only [cvtEmitGroup, emit_work, Fin.ofNat]
  omega

/-- After the drain, `NB` is the old count modulo `t`. -/
theorem cvtDrain_nb {t : Nat} (ht : 0 < t) (rounds : Nat) (r : Run) (h : r.work.nb.val ≤ rounds) :
    (cvtDrain t rounds r).work.nb.val = r.work.nb.val % t := by
  induction rounds generalizing r with
  | zero => simp only [cvtDrain]; rw [Nat.mod_eq_of_lt (by omega)]
  | succ n ih =>
    simp only [cvtDrain]
    by_cases hle : t ≤ r.work.nb.val
    · rw [if_pos hle, ih _ (by rw [cvtEmitGroup_nb hle]; omega), cvtEmitGroup_nb hle]
      exact (Nat.mod_eq_sub_mod hle).symm
    · rw [if_neg hle, Nat.mod_eq_of_lt (by omega)]

/-- One input group moves `NB` on by `f` modulo `t`, where `f + t - 1` bits fit in `ACC` (R15). -/
theorem cvtGroup_nb {f t : Nat} (ht : 0 < t) (hft : f + t ≤ 13) (v : Byte) {r : Run}
    (h : r.work.nb.val < t) :
    (cvtGroup f t v r).work.nb.val = (r.work.nb.val + f) % t := by
  have hnb : (cvtShiftIn f v r.work).nb.val = r.work.nb.val + f := by
    simp only [cvtShiftIn, Fin.ofNat]
    omega
  rw [cvtGroup, cvtDrain_nb ht _ _ (Nat.le_refl _)]
  exact congrArg (· % t) hnb

/-- Over a stream in range the converter does not fault, and `NB` counts the bits modulo `t`. -/
theorem cvtStream_nb {f t : Nat} (ht : 0 < t) (hft : f + t ≤ 13) (data : List Byte)
    (hr : ∀ v ∈ data, v.toNat < 2 ^ f) (r : Run) (h : r.work.nb.val < t) :
    ∃ r', cvtStream f t data r = .ok r' ∧
      r'.work.nb.val = (r.work.nb.val + f * data.length) % t := by
  induction data generalizing r with
  | nil => exact ⟨r, rfl, by simp [Nat.mod_eq_of_lt h]⟩
  | cons v rest ih =>
    have hv : ¬ 2 ^ f ≤ v.toNat := Nat.not_le.mpr (hr v (by simp))
    have hnb := cvtGroup_nb ht hft v h
    obtain ⟨r', h1, h2⟩ := ih (fun u hu => hr u (by simp [hu])) (cvtGroup f t v r)
      (by rw [hnb]; exact Nat.mod_lt _ ht)
    refine ⟨r', by simp only [cvtStream, if_neg hv, h1], ?_⟩
    rw [h2, hnb, List.length_cons, Nat.mod_add_mod, Nat.mul_succ]
    congr 1
    omega

/-- An element out of range is `ValueRange`, wherever it stands. -/
theorem cvtStream_error {f t : Nat} (data : List Byte) (h : ∃ v ∈ data, 2 ^ f ≤ v.toNat) (r : Run) :
    cvtStream f t data r = .error .valueRange := by
  induction data generalizing r with
  | nil => simp at h
  | cons v rest ih =>
    simp only [cvtStream]
    split
    · rfl
    · obtain ⟨u, hu, hr⟩ := h
      rcases List.mem_cons.mp hu with rfl | hu
      · contradiction
      · exact ih ⟨u, hu, hr⟩ _

end Sys2Proof.Machine
end

