-- ==== Sys2Proof/Laws/Field.lean ====
section
/-! SUPPORT. The multiplier: what it does to the registers, said once. -/

namespace Sys2Proof.Machine

@[simp] theorem multiply_mr (c : Constants) (a b : Sym) (w : Work) :
    (multiply c a b w).mr = gfmul c a b := by simp only [multiply]

@[simp] theorem multiply_acc (c : Constants) (a b : Sym) (w : Work) :
    (multiply c a b w).acc = w.acc := by simp only [multiply]

@[simp] theorem multiply_nb (c : Constants) (a b : Sym) (w : Work) :
    (multiply c a b w).nb = w.nb := by simp only [multiply]

@[simp] theorem multiply_res (c : Constants) (a b : Sym) (w : Work) :
    (multiply c a b w).res = w.res := by simp only [multiply]

@[simp] theorem multiply_top (c : Constants) (a b : Sym) (w : Work) :
    (multiply c a b w).top = w.top := by simp only [multiply]

@[simp] theorem multiply_code (c : Constants) (a b : Sym) (w : Work) :
    (multiply c a b w).code = w.code := by simp only [multiply]

@[simp] theorem multiply_xs (c : Constants) (a b : Sym) (w : Work) :
    (multiply c a b w).xs = w.xs := by simp only [multiply]

@[simp] theorem multiply_x (c : Constants) (a b : Sym) (w : Work) :
    (multiply c a b w).x = w.x := by simp only [multiply]

@[simp] theorem multiply_ln (c : Constants) (a b : Sym) (w : Work) :
    (multiply c a b w).ln = w.ln := by simp only [multiply]

@[simp] theorem multiply_lm (c : Constants) (a b : Sym) (w : Work) :
    (multiply c a b w).lm = w.lm := by simp only [multiply]

@[simp] theorem multiply_wt (c : Constants) (a b : Sym) (w : Work) :
    (multiply c a b w).wt = w.wt := by simp only [multiply]

@[simp] theorem multiply_accs (c : Constants) (a b : Sym) (w : Work) :
    (multiply c a b w).accs = w.accs := by simp only [multiply]

/-- One step of the multiplier's loop. -/
theorem mulLoop_cons (c : Constants) (b : Sym) (k : Fin 5) (rest : List (Fin 5)) (ma : BitVec 6)
    (mr : Sym) :
    mulLoop c b (k :: rest) ma mr =
      mulLoop c b rest (doubleReduce c ma) (if b.getLsbD k.val then mr ^^^ ma.setWidth 5 else mr) :=
  rfl

/-- The loop is linear over exclusive-or in operand `b` and the accumulating result. -/
theorem mulLoop_xor_right (c : Constants) (b d : Sym) (l : List (Fin 5)) (ma : BitVec 6) (m n : Sym) :
    mulLoop c (b ^^^ d) l ma (m ^^^ n) = mulLoop c b l ma m ^^^ mulLoop c d l ma n := by
  induction l generalizing ma m n with
  | nil => rfl
  | cons k rest ih =>
    simp only [mulLoop_cons, BitVec.getLsbD_xor]
    rw [← ih]
    congr 1
    cases b.getLsbD k.val <;> cases d.getLsbD k.val <;>
      simp only [Bool.xor_false, Bool.xor_true, Bool.not_true, Bool.not_false, Bool.false_eq_true,
        if_true, if_false]
    · rw [BitVec.xor_assoc]
    · rw [BitVec.xor_assoc, BitVec.xor_assoc, BitVec.xor_comm n]
    · rw [BitVec.xor_assoc m, BitVec.xor_comm _ (n ^^^ _), BitVec.xor_assoc n, BitVec.xor_self,
        BitVec.xor_zero]

/-- Distributivity on the right, under any constants (R87). -/
theorem gfmul_xor_right (c : Constants) (a b d : Sym) :
    gfmul c a (b ^^^ d) = gfmul c a b ^^^ gfmul c a d := by
  have h := mulLoop_xor_right c b d mulOrder (a.setWidth 6) 0 0
  rwa [BitVec.xor_self] at h

/-- Doubling and reduction is linear over exclusive-or, under any constants. -/
theorem doubleReduce_eq (c : Constants) (ma : BitVec 6) :
    doubleReduce c ma = (ma <<< 1) ^^^ (if ma.getLsbD 4 then c.reduce else 0#6) := by
  have h : 32 ≤ (ma <<< 1).toNat ↔ ma.getLsbD 4 = true := by
    revert ma
    decide
  simp only [doubleReduce, h]
  split
  · rfl
  · rw [BitVec.xor_zero]

theorem doubleReduce_xor (c : Constants) (x y : BitVec 6) :
    doubleReduce c (x ^^^ y) = doubleReduce c x ^^^ doubleReduce c y := by
  have hs : (x ^^^ y) <<< 1 = x <<< 1 ^^^ y <<< 1 := BitVec.shiftLeft_xor_distrib x y 1
  simp only [doubleReduce_eq, hs, BitVec.getLsbD_xor]
  generalize x <<< 1 = p
  generalize y <<< 1 = q
  generalize c.reduce = e
  cases x.getLsbD 4 <;> cases y.getLsbD 4
  · simp
  · simp [BitVec.xor_assoc]
  · simp only [Bool.xor_false, if_true, Bool.false_eq_true, if_false, BitVec.xor_zero]
    rw [BitVec.xor_assoc, BitVec.xor_comm q, BitVec.xor_assoc]
  · simp only [Bool.xor_true, Bool.not_true, Bool.false_eq_true, if_false, if_true, BitVec.xor_zero]
    rw [BitVec.xor_assoc p, BitVec.xor_comm e (q ^^^ e), BitVec.xor_assoc q, BitVec.xor_self,
      BitVec.xor_zero]

/-- The loop is linear over exclusive-or in `MA` and the accumulating result. -/
theorem mulLoop_xor_left (c : Constants) (b : Sym) (l : List (Fin 5)) (x y : BitVec 6) (m n : Sym) :
    mulLoop c b l (x ^^^ y) (m ^^^ n) = mulLoop c b l x m ^^^ mulLoop c b l y n := by
  induction l generalizing x y m n with
  | nil => rfl
  | cons k rest ih =>
    simp only [mulLoop_cons, doubleReduce_xor]
    rw [← ih]
    congr 1
    split
    · rw [BitVec.setWidth_xor, BitVec.xor_assoc, BitVec.xor_assoc, ← BitVec.xor_assoc n,
        BitVec.xor_comm n, BitVec.xor_assoc]
    · rfl

/-- Distributivity on the left, under any constants (R87). -/
theorem gfmul_xor_left (c : Constants) (a b d : Sym) :
    gfmul c (a ^^^ b) d = gfmul c a d ^^^ gfmul c b d := by
  have h := mulLoop_xor_left c d mulOrder (a.setWidth 6) (b.setWidth 6) 0 0
  rw [← BitVec.setWidth_xor, BitVec.xor_self] at h
  exact h

/-- The powers of x: what a linear statement about symbols need only be checked on. -/
def symBasis : List Sym := [1, 2, 4, 8, 16]

/-- A property that 0 and the powers of x have and that exclusive-or keeps holds of every symbol. -/
theorem sym_linear_induction (P : Sym → Prop) (zero : P 0) (basis : ∀ e ∈ symBasis, P e)
    (xor : ∀ a b, P a → P b → P (a ^^^ b)) (a : Sym) : P a := by
  have bit : ∀ e ∈ symBasis, P (a &&& e) := by
    intro e he
    have h : ∀ a : Sym, ∀ e ∈ symBasis, a &&& e = 0 ∨ a &&& e = e := by decide
    rcases h a e he with h | h
    · rw [h]; exact zero
    · rw [h]; exact basis e he
  have sum : ∀ a : Sym,
      a = (a &&& 1) ^^^ ((a &&& 2) ^^^ ((a &&& 4) ^^^ ((a &&& 8) ^^^ (a &&& 16)))) := by decide
  rw [sum a]
  exact xor _ _ (bit 1 (by decide)) (xor _ _ (bit 2 (by decide)) (xor _ _ (bit 4 (by decide))
    (xor _ _ (bit 8 (by decide)) (bit 16 (by decide)))))

/-- All that `GFMUL` can do. -/
theorem gfmulRun_cases (c : Constants) (a b : Sym) (inp : List Byte) (r : Run) :
    (inp = [] ∧ (gfmulRun c a b inp r).map Run.out = .ok (r.out ++ [symToByte (gfmul c a b)])) ∨
      (inp ≠ [] ∧ gfmulRun c a b inp r = .error .badFrame) := by
  cases inp with
  | nil => exact .inl ⟨rfl, by simp [gfmulRun, Except.map]⟩
  | cons v rest => exact .inr ⟨by simp, by simp [gfmulRun]⟩

/-- All that `GFINV` can do. -/
theorem gfinvRun_cases (c : Constants) (a : Sym) (inp : List Byte) (r : Run) :
    (inp = [] ∧ a ≠ 0 ∧ (gfinvRun c a inp r).map Run.out = .ok (r.out ++ [symToByte (invTable c a)])) ∨
      (inp = [] ∧ a = 0 ∧ gfinvRun c a inp r = .error .inverseOfZero) ∨
      (inp ≠ [] ∧ gfinvRun c a inp r = .error .badFrame) := by
  cases inp with
  | nil =>
    by_cases ha : a = 0
    · exact .inr (.inl ⟨rfl, ha, by simp [gfinvRun, ha]⟩)
    · exact .inl ⟨rfl, ha, by simp only [gfinvRun, List.isEmpty_nil, if_true, if_neg ha]; rfl⟩
  | cons v rest => exact .inr (.inr ⟨by simp, by simp [gfinvRun]⟩)

end Sys2Proof.Machine
end

