-- ==== Sys2Proof/Laws/Interpolation.lean ====
section
/-! SUPPORT. The interpolator: the values it leaves in its registers, said once, whatever the registers
held. -/

namespace Sys2Proof.Machine

/-- `LN` after the products over the points `l` (R121), as a value. -/
def lnValue (c : Constants) (x : Sym) (xs : List Sym) (l : List Nat) (p : Sym) : Sym :=
  l.foldl (fun p i => gfmul c p (xs.getD i 0 ^^^ x)) p

/-- The factor of point `j` in `LM` for weight `i` (R121). -/
def lmFactor (x : Sym) (xs : List Sym) (i j : Nat) : Sym :=
  if j = i then x ^^^ xs.getD j 0 else xs.getD i 0 ^^^ xs.getD j 0

/-- `LM` after the products over the points `l` (R121), as a value. -/
def lmValue (c : Constants) (x : Sym) (xs : List Sym) (i : Nat) (l : List Nat) (p : Sym) : Sym :=
  l.foldl (fun p j => gfmul c p (lmFactor x xs i j)) p

/-- Weight `i` in the arrangement of R121, as a value. -/
def arrangedWeight (c : Constants) (x : Sym) (xs : List Sym) (i : Nat) : Sym :=
  gfmul c (lnValue c x xs (List.range xs.length) 1)
    (invTable c (lmValue c x xs i (List.range xs.length) 1))

/-- What the interpolator's loops keep: the points and the target. -/
def samePoints (w w' : Work) : Prop := w'.xs = w.xs ∧ w'.x = w.x

theorem lnStep_spec (c : Constants) (w : Work) (i : Nat) :
    (lnStep c w i).ln = gfmul c w.ln (w.xs.getD i 0 ^^^ w.x) ∧ samePoints w (lnStep c w i) ∧
      (lnStep c w i).wt = w.wt := by
  simp only [lnStep, samePoints, multiply_mr, multiply_xs, multiply_x, multiply_wt, and_self]

theorem foldl_lnStep (c : Constants) (l : List Nat) (w : Work) :
    (l.foldl (lnStep c) w).ln = lnValue c w.x w.xs l w.ln ∧
      samePoints w (l.foldl (lnStep c) w) ∧ (l.foldl (lnStep c) w).wt = w.wt := by
  induction l generalizing w with
  | nil => exact ⟨rfl, ⟨rfl, rfl⟩, rfl⟩
  | cons i rest ih =>
    obtain ⟨hln, ⟨hxs, hx⟩, hwt⟩ := lnStep_spec c w i
    obtain ⟨h1, ⟨h2, h3⟩, h4⟩ := ih (lnStep c w i)
    simp only [List.foldl_cons, samePoints, h1, h2, h3, h4, hln, hxs, hx, hwt, lnValue, and_self]

theorem lmStep_spec (c : Constants) (i : Nat) (w : Work) (j : Nat) :
    (lmStep c i w j).lm = gfmul c w.lm (lmFactor w.x w.xs i j) ∧ samePoints w (lmStep c i w j) ∧
      (lmStep c i w j).wt = w.wt ∧ (lmStep c i w j).ln = w.ln := by
  simp only [lmStep, lmFactor, samePoints, multiply_mr, multiply_xs, multiply_x, multiply_wt,
    multiply_ln, and_self]

theorem foldl_lmStep (c : Constants) (i : Nat) (l : List Nat) (w : Work) :
    (l.foldl (lmStep c i) w).lm = lmValue c w.x w.xs i l w.lm ∧
      samePoints w (l.foldl (lmStep c i) w) ∧ (l.foldl (lmStep c i) w).wt = w.wt ∧
      (l.foldl (lmStep c i) w).ln = w.ln := by
  induction l generalizing w with
  | nil => exact ⟨rfl, ⟨rfl, rfl⟩, rfl, rfl⟩
  | cons j rest ih =>
    obtain ⟨hlm, ⟨hxs, hx⟩, hwt, hln⟩ := lmStep_spec c i w j
    obtain ⟨h1, ⟨h2, h3⟩, h4, h5⟩ := ih (lmStep c i w j)
    simp only [List.foldl_cons, samePoints, h1, h2, h3, h4, h5, hlm, hxs, hx, hwt, hln, lmValue,
      and_self]

/-- One weight: appended to `WT`, everything the other weights need kept. -/
theorem weightStep_spec (c : Constants) (w : Work) (i : Nat) :
    (weightStep c w i).wt = w.wt ++
        [gfmul c w.ln (invTable c (lmValue c w.x w.xs i (List.range w.xs.length) 1))] ∧
      samePoints w (weightStep c w i) ∧ (weightStep c w i).ln = w.ln := by
  obtain ⟨hlm, ⟨hxs, hx⟩, hwt, hln⟩ :=
    foldl_lmStep c i (List.range w.xs.length) { w with lm := 1 }
  have hxs' := hxs
  simp only [weightStep, samePoints, multiply_mr, multiply_wt, multiply_xs, multiply_x, multiply_ln,
    hlm, hwt, hln, hxs, hx, and_self]

theorem foldl_weightStep (c : Constants) (l : List Nat) (w : Work) :
    (l.foldl (weightStep c) w).wt = w.wt ++ l.map (fun i =>
        gfmul c w.ln (invTable c (lmValue c w.x w.xs i (List.range w.xs.length) 1))) ∧
      samePoints w (l.foldl (weightStep c) w) := by
  induction l generalizing w with
  | nil => exact ⟨by simp, rfl, rfl⟩
  | cons i rest ih =>
    obtain ⟨hwt, ⟨hxs, hx⟩, hln⟩ := weightStep_spec c w i
    obtain ⟨h1, h2, h3⟩ := ih (weightStep c w i)
    simp only [List.foldl_cons, samePoints, h1, h2, h3, hwt, hxs, hx, hln, and_self, and_true]
    simp

/-- The weights unit leaves the arranged weights of its points in `WT`, whatever the registers held. -/
theorem weightsRun_wt (c : Constants) (x : Sym) (xs : List Sym) (w : Work) :
    (weightsRun c (lgrLoad x xs w)).wt =
      (List.range xs.length).map (arrangedWeight c x xs) := by
  obtain ⟨hln, ⟨hxs, hx⟩, hwt⟩ :=
    foldl_lnStep c (List.range (lgrLoad x xs w).xs.length) { lgrLoad x xs w with ln := 1 }
  obtain ⟨h1, -⟩ := foldl_weightStep c
    (List.range ((List.range (lgrLoad x xs w).xs.length).foldl (lnStep c)
      { lgrLoad x xs w with ln := 1 }).xs.length)
    ((List.range (lgrLoad x xs w).xs.length).foldl (lnStep c) { lgrLoad x xs w with ln := 1 })
  rw [weightsRun, h1, hwt, hxs, hx, hln]
  rfl

/-- The value of a lane: the terms of the vectors `l`, added to `y` (R123). -/
def laneValue (c : Constants) (wt : List Sym) (vs : List (List Sym)) (i : Nat) (l : List Nat)
    (y : Sym) : Sym :=
  l.foldl (fun y j => y ^^^ gfmul c (wt.getD j 0) ((vs.getD j []).getD i 0)) y

theorem laneStep_spec (c : Constants) (vs : List (List Sym)) (i : Nat) (w : Work) (j : Nat) :
    (laneStep c vs i w j).accs = w.accs.set i
        (w.accs.getD i 0 ^^^ gfmul c (w.wt.getD j 0) ((vs.getD j []).getD i 0)) ∧
      (laneStep c vs i w j).wt = w.wt := by
  simp only [laneStep, multiply_mr, multiply_accs, multiply_wt, and_self]

theorem foldl_laneStep (c : Constants) (vs : List (List Sym)) (i : Nat) (l : List Nat) (w : Work)
    (hi : i < w.accs.length) :
    (l.foldl (laneStep c vs i) w).accs =
        w.accs.set i (laneValue c w.wt vs i l (w.accs.getD i 0)) ∧
      (l.foldl (laneStep c vs i) w).wt = w.wt := by
  induction l generalizing w with
  | nil => exact ⟨by simp [laneValue, List.getD_eq_getElem?_getD, List.getElem?_eq_getElem hi], rfl⟩
  | cons j rest ih =>
    obtain ⟨haccs, hwt⟩ := laneStep_spec c vs i w j
    obtain ⟨h1, h2⟩ := ih (laneStep c vs i w j) (by simpa [haccs] using hi)
    simp only [List.foldl_cons, h1, h2, haccs, hwt, laneValue, and_true]
    simp [List.getD_eq_getElem?_getD, hi]

/-- The lanes over the positions `l`: each emits its value, where the accumulators of those positions
start at 0. -/
theorem foldl_laneRun (c : Constants) (vs : List (List Sym)) (l : List Nat) (r : Run)
    (hnd : l.Nodup) (hl : ∀ i ∈ l, i < r.work.accs.length ∧ r.work.accs.getD i 0 = 0) :
    (l.foldl (laneRun c vs) r).out = r.out ++ l.map (fun i =>
        symToByte (laneValue c r.work.wt vs i (List.range vs.length) 0)) := by
  induction l generalizing r with
  | nil => simp
  | cons i rest ih =>
    obtain ⟨hi, h0⟩ := hl i (by simp)
    obtain ⟨h1, h2⟩ := foldl_laneStep c vs i (List.range vs.length) r.work hi
    have hnd' := List.nodup_cons.mp hnd
    have hwork : (laneRun c vs r i).work = (List.range vs.length).foldl (laneStep c vs i) r.work := rfl
    have hout : (laneRun c vs r i).out = r.out ++
        [symToByte (laneValue c r.work.wt vs i (List.range vs.length) 0)] := by
      simp only [laneRun, emit_out, h1, h0]
      simp [List.getD_eq_getElem?_getD, hi]
    rw [List.foldl_cons, ih (laneRun c vs r i) hnd'.2 ?_, hout, hwork, h2]
    · simp
    · intro j hj
      obtain ⟨hj1, hj2⟩ := hl j (by simp [hj])
      have hne : i ≠ j := fun h => hnd'.1 (h ▸ hj)
      rw [hwork, h1]
      refine ⟨by simpa using hj1, ?_⟩
      rw [List.getD_eq_getElem?_getD, List.getElem?_set_ne hne, ← List.getD_eq_getElem?_getD, hj2]

/-- The checks of R125 on the points, as propositions. -/
theorem pointFault_eq (x : Sym) (xs : List Sym) :
    pointFault x xs = if ¬ xs.Nodup then some .duplicateShareIndex
      else if x ∈ xs then some .targetIndexPresent else none := by
  simp only [pointFault, hasRepeat_iff, List.contains_iff_mem]

/-- `LAGW` on points that pass the checks. -/
theorem lagwRun_ok (c : Constants) {x : Sym} {inp : List Byte} (r : Run) (hne : inp ≠ [])
    (hr : ∀ v ∈ inp, v.toNat < 32) (hnd : (inp.map byteToSym).Nodup)
    (hx : x ∉ inp.map byteToSym) :
    (lagwRun c x inp r).map Run.out = .ok (r.out ++
      ((List.range (inp.map byteToSym).length).map
        (arrangedWeight c x (inp.map byteToSym))).map symToByte) := by
  have hpf : pointFault x (inp.map byteToSym) = none := by
    rw [pointFault_eq, if_neg (not_not.mpr hnd), if_neg hx]
  have hemp : inp.isEmpty = false := by simpa using hne
  simp only [lagwRun, hemp, readSymbols_ok hr, hpf, Except.map, weightsRun_wt]
  simp

/-- `INTERP` on vectors that pass the checks. -/
theorem interpRun_ok (c : Constants) {k x : Sym} {inp : List Byte} (r : Run)
    (hf : interpFrame k inp = true) (hr : ∀ v ∈ inp, v.toNat < 32)
    (hnd : ((vectors k.toNat (inp.length / k.toNat) (inp.map byteToSym)).map xCoordinate).Nodup)
    (hx : x ∉ (vectors k.toNat (inp.length / k.toNat) (inp.map byteToSym)).map xCoordinate) :
    (interpRun c k x inp r).map Run.out = .ok (r.out ++
      (List.range (inp.length / k.toNat)).map (fun i =>
        let vs := vectors k.toNat (inp.length / k.toNat) (inp.map byteToSym)
        let xs := vs.map xCoordinate
        symToByte (laneValue c ((List.range xs.length).map (arrangedWeight c x xs)) vs i
          (List.range vs.length) 0))) := by
  have hpf : pointFault x ((vectors k.toNat (inp.length / k.toNat) (inp.map byteToSym)).map
      xCoordinate) = none := by
    rw [pointFault_eq, if_neg (not_not.mpr hnd), if_neg hx]
  simp only [interpRun, hf, readSymbols_ok hr, hpf, if_true]
  refine congrArg Except.ok ?_
  rw [foldl_laneRun c _ _ _ List.nodup_range
    (by intro i hi; have := List.mem_range.mp hi; simp [List.getD_eq_getElem?_getD, this])]
  simp only [weightsRun_wt]

/-- When `LAGW` faults, and with what (R125). -/
theorem lagwRun_cases (c : Constants) (x : Sym) (inp : List Byte) (r : Run) :
    (inp = [] ∧ lagwRun c x inp r = .error .badFrame) ∨
      (inp ≠ [] ∧ (∃ v ∈ inp, 32 ≤ v.toNat) ∧ lagwRun c x inp r = .error .valueRange) ∨
      (inp ≠ [] ∧ (∀ v ∈ inp, v.toNat < 32) ∧
        ((¬ (inp.map byteToSym).Nodup ∧ lagwRun c x inp r = .error .duplicateShareIndex) ∨
          ((inp.map byteToSym).Nodup ∧ x ∈ inp.map byteToSym ∧
            lagwRun c x inp r = .error .targetIndexPresent) ∨
          ((inp.map byteToSym).Nodup ∧ x ∉ inp.map byteToSym))) := by
  by_cases hne : inp = []
  · exact .inl ⟨hne, by simp [lagwRun, hne]⟩
  have hemp : inp.isEmpty = false := by simpa using hne
  rcases readSymbols_cases inp with ⟨h, hr⟩ | ⟨h, hr⟩
  · refine .inr (.inr ⟨hne, h, ?_⟩)
    by_cases hnd : (inp.map byteToSym).Nodup
    · by_cases hx : x ∈ inp.map byteToSym
      · exact .inr (.inl ⟨hnd, hx, by
          simp only [lagwRun, hemp, hr, pointFault_eq, if_neg (not_not.mpr hnd), if_pos hx]; rfl⟩)
      · exact .inr (.inr ⟨hnd, hx⟩)
    · exact .inl ⟨hnd, by simp only [lagwRun, hemp, hr, pointFault_eq, if_pos hnd]; rfl⟩
  · exact .inr (.inl ⟨hne, h, by simp [lagwRun, hne, hr]⟩)

/-- When `INTERP` faults, and with what (R125). -/
theorem interpRun_cases (c : Constants) (k x : Sym) (inp : List Byte) (r : Run) :
    let xs := (vectors k.toNat (inp.length / k.toNat) (inp.map byteToSym)).map xCoordinate
    (interpFrame k inp = false ∧ interpRun c k x inp r = .error .badFrame) ∨
      (interpFrame k inp = true ∧ (∃ v ∈ inp, 32 ≤ v.toNat) ∧
        interpRun c k x inp r = .error .valueRange) ∨
      (interpFrame k inp = true ∧ (∀ v ∈ inp, v.toNat < 32) ∧
        ((¬ xs.Nodup ∧ interpRun c k x inp r = .error .duplicateShareIndex) ∨
          (xs.Nodup ∧ x ∈ xs ∧ interpRun c k x inp r = .error .targetIndexPresent) ∨
          (xs.Nodup ∧ x ∉ xs))) := by
  intro xs
  cases hf : interpFrame k inp with
  | false => exact .inl ⟨rfl, by simp [interpRun, hf]⟩
  | true =>
    rcases readSymbols_cases inp with ⟨h, hr⟩ | ⟨h, hr⟩
    · refine .inr (.inr ⟨rfl, h, ?_⟩)
      by_cases hnd : xs.Nodup
      · by_cases hx : x ∈ xs
        · exact .inr (.inl ⟨hnd, hx, by
            simp only [interpRun, hf, hr, pointFault_eq, if_pos]
            rw [if_neg (not_not.mpr hnd), if_pos hx]⟩)
        · exact .inr (.inr ⟨hnd, hx⟩)
      · exact .inl ⟨hnd, by
          simp only [interpRun, hf, hr, pointFault_eq, if_pos]
          rw [if_pos hnd]⟩
    · exact .inr (.inl ⟨rfl, h, by simp [interpRun, hf, hr]⟩)

end Sys2Proof.Machine
end

