-- ==== Sys2Proof/Laws/PerInstr.lean ====
section
/-! SUPPORT. Statements made per command, one lemma per constructor of `Instr`: the word of a command
selects exactly one row of the opcode map (`30_encoding.md` R51, R52). -/

namespace Sys2Proof.Laws.EncodeSelectsRow

/-- The word of the command selects one row and no other. -/
def Statement (i : Instr) : Prop := (rows.filter (·.selects (encode i))).length = 1

theorem cvt58 : Statement .cvt58 := by unfold Statement; decide
theorem cvt58p : Statement .cvt58p := by unfold Statement; decide
theorem cvt85 : Statement .cvt85 := by unfold Statement; decide
theorem cvt85p : Statement .cvt85p := by unfold Statement; decide
theorem gfmul (a b : Sym) : Statement (.gfmul a b) := by
  unfold Statement
  revert a b
  decide +kernel
theorem gfinv (a : Sym) : Statement (.gfinv a) := by
  unfold Statement
  revert a
  decide +kernel
theorem pmods : Statement .pmods := by unfold Statement; decide
theorem pmodl : Statement .pmodl := by unfold Statement; decide
theorem cksum : Statement .cksum := by unfold Statement; decide
theorem verify : Statement .verify := by unfold Statement; decide
theorem lagw (x : Sym) : Statement (.lagw x) := by
  unfold Statement
  revert x
  decide +kernel
theorem interp (k x : Sym) : Statement (.interp k x) := by
  unfold Statement
  revert k x
  decide +kernel

end Sys2Proof.Laws.EncodeSelectsRow
end

