-- ==== Sys2Proof/Tests/Slice0.lean ====
section
/-! SUPPORT. Tests. Expected results are the spec's: `95_test_vectors.md` (the vector is named) or the
examples of the command rules. The last part gives, for every statement with hypotheses, values that meet
them. -/

namespace Sys2Proof.Tests

open Sys2Proof.Machine

/-- A state with an operand stream, everything else as after reset. -/
def onStream (inp : List Nat) : State := { State.reset with inp := inp.map (BitVec.ofNat 8) }

/-- A state in which a transaction is issued. -/
def issued (cw : CmdWord) (inp : List Nat) : State :=
  State.reset.issue cw (inp.map (BitVec.ofNat 8))

/-- What the host reads after a step, `ST` as its code. -/
def answer (o : Host.Outcome State Fault Refusal) : Option (BitVec 4 × List Nat) :=
  match o with
  | .next t => t.result.map fun r => (r.1.code, r.2.map BitVec.toNat)
  | .fault _ => none
  | .refused _ => none

/-! Decoding: words written out from R52. -/

theorem test_decode_cvt58 : decode 0b0001000000000000 = .ok .cvt58 := by decide
theorem test_decode_cvt58p : decode 0b0001000000000001 = .ok .cvt58p := by decide
theorem test_decode_cvt85 : decode 0b0001000000000010 = .ok .cvt85 := by decide
theorem test_decode_cvt85p : decode 0b0001000000000011 = .ok .cvt85p := by decide
theorem test_decode_gfmul : decode 0b0010001011010011 = .ok (.gfmul 19 22) := by decide
theorem test_decode_gfinv : decode 0b0011000000000010 = .ok (.gfinv 2) := by decide
theorem test_decode_pmods : decode 0b0100000000000000 = .ok .pmods := by decide
theorem test_decode_pmodl : decode 0b0100000000000001 = .ok .pmodl := by decide
theorem test_decode_cksum : decode 0b0101000000000000 = .ok .cksum := by decide
theorem test_decode_verify : decode 0b0110000000000000 = .ok .verify := by decide
theorem test_decode_lagw : decode 0b0111000000001101 = .ok (.lagw 13) := by decide
theorem test_decode_interp : decode 0b1000000001110000 = .ok (.interp 3 16) := by decide
theorem test_decode_unassigned : decode 0b0000111111111111 = .error (.unassignedOpcode 0) := by decide
theorem test_decode_reserved : decode 0b1000010001010000 = .error (.reservedBit 0x8450) := by decide
theorem test_table_word_short : decodeTableWord 16 0x8050 = some (.interp 2 16) := by decide
theorem test_recover_word : encode (.recover 2) = 0x8050 := by decide

/-! Legal words: one ill-formed word for each check of R53. -/

theorem test_refused_opcode_zero : legalWord 0x0FFF = false := by decide
theorem test_refused_opcode_nine : legalWord 0x9000 = false := by decide
theorem test_refused_opcode_fifteen : legalWord 0xF000 = false := by decide
theorem test_refused_z_bits_11_10 : legalWord 0x6800 = false := by decide
theorem test_refused_z_bits_9_5 : legalWord 0x5020 = false := by decide
theorem test_refused_z_bits_4_2 : legalWord 0x6004 = false := by decide
theorem test_refused_z_bits_1_0 : legalWord 0x5001 = false := by decide
theorem test_refused_f_bits_11_10 : legalWord 0x1400 = false := by decide
theorem test_refused_f_bits_9_5 : legalWord 0x4200 = false := by decide
theorem test_refused_f_bits_4_2 : legalWord 0x1004 = false := by decide
theorem test_refused_pmod_bit_1 : legalWord 0x4002 = false := by decide
theorem test_refused_s_bits_11_10 : legalWord 0x3802 = false := by decide
theorem test_refused_s_bits_9_5 : legalWord 0x7020 = false := by decide
theorem test_refused_ss_bit_10 : legalWord 0x2450 = false := by decide
theorem test_refused_ss_bit_11 : legalWord 0x2850 = false := by decide
theorem test_legal_ends : legalWord 0x83FF = true ∧ legalWord 0x1003 = true := by decide

/-! The step. -/

/-- V-D6: an illegal word, whatever `IN` holds. -/
theorem test_illegal_word : answer (step (issued 0x8450 [1])) = some (1, []) := by decide

/-- R190: a step of the idle block changes nothing. -/
theorem test_idle_rests : answer (step State.reset) = none := by decide

/-- R55's `GFMUL 16, 2`, through the word the host places. -/
theorem test_fetched_word_runs : answer (step (State.reset.withFetchWord 16 0x2050)) = some (0, [9]) := by
  decide

/-- V-P4: a script, its second transaction a fault that the third does not see. -/
theorem test_script :
    (runScript [(0x3005, []), (0x3000, []), (0x2108, [])] State.reset).map
      (Option.map fun r => (r.1.code.toNat, r.2.map BitVec.toNat)) =
      [some (0, [8]), some (7, []), some (0, [18])] := by decide +kernel

/-- R3: under a `MAX_LEN` of 1 a stream of two elements is not issued, and the next entry is. -/
theorem test_script_bounded :
    (runScriptWithin (some 1) [(0x1002, [255]), (0x1002, [1, 2]), (0x2108, [])] State.reset).map
      (Option.map fun r => (r.1.code.toNat, r.2.map BitVec.toNat)) =
      [some (0, [31]), none, some (0, [18])] := by decide +kernel

/-! One or two vectors for each command. -/

/-- V-D3: four leftover bits, discarded though not zero. -/
theorem test_cvt58_leftover : answer (exec .cvt58 (onStream [6, 6, 6, 7])) = some (0, [49, 140]) := by
  decide
/-- V-D3: `ValueRange`, not `IncompleteGroup`. -/
theorem test_cvt58_range_first : answer (exec .cvt58 (onStream [32])) = some (2, []) := by decide
/-- V-D3. -/
theorem test_cvt58p_pads : answer (exec .cvt58p (onStream [31, 31])) = some (0, [255, 192]) := by decide
/-- V-D3. -/
theorem test_cvt85_discards : answer (exec .cvt85 (onStream [0, 7])) = some (0, [0, 0, 3]) := by decide
/-- V-D3. -/
theorem test_cvt85p_pads : answer (exec .cvt85p (onStream [49, 140])) = some (0, [6, 6, 6, 0]) := by decide
/-- V-D1, step traces. -/
theorem test_gfmul : answer (exec (.gfmul 19 22) (onStream [])) = some (0, [18]) := by decide
/-- V-D1: `GFMUL 16, 2 <- [1]`. -/
theorem test_gfmul_frame : answer (exec (.gfmul 16 2) (onStream [1])) = some (4, []) := by decide
/-- V-D2. -/
theorem test_gfinv : answer (exec (.gfinv 7) (onStream [])) = some (0, [29]) := by decide
/-- V-D2. -/
theorem test_gfinv_zero : answer (exec (.gfinv 0) (onStream [])) = some (7, []) := by decide
/-- V-D4: eight zeros, the first feedback. -/
theorem test_pmods_feedback : answer (exec .pmods (onStream [0, 0, 0, 0, 0, 0, 0, 0])) =
    some (0, [26, 24, 17, 5, 19, 25, 25, 25, 31, 27, 24, 16, 16]) := by decide +kernel
/-- V-D4: ten zeros, the first feedback. -/
theorem test_pmodl_feedback : answer (exec .pmodl (onStream (List.replicate 10 0))) =
    some (0, [12, 9, 25, 23, 26, 25, 21, 6, 23, 21, 6, 5, 22, 4, 23]) := by decide +kernel
/-- V-S1: the checksum `4nzvca9cmczlw` of the document's first example. -/
theorem test_cksum_example : answer (exec .cksum (onStream
      ([15, 11, 25, 16, 11, 16] ++ List.replicate 26 6))) =
    some (0, [21, 19, 2, 12, 24, 29, 5, 24, 27, 24, 2, 31, 14]) := by decide +kernel
/-- V-D4: `CKSUM <- c(81)` is long. -/
theorem test_cksum_long : answer (exec .cksum (onStream ((List.range 81).map (· % 32)))) =
    some (0, [3, 15, 16, 22, 24, 24, 14, 7, 8, 6, 3, 24, 26, 19, 20]) := by decide +kernel
/-- V-S1: the document's first example verifies. -/
theorem test_verify_example : answer (exec .verify (onStream ([15, 11, 25, 16, 11, 16] ++
      List.replicate 26 6 ++ [21, 19, 2, 12, 24, 29, 5, 24, 27, 24, 2, 31, 14]))) = some (0, [1]) := by
  decide +kernel
/-- V-D4: whole length 94 answers 0 though its short-code residue is the target. -/
theorem test_verify_94 : answer (exec .verify (onStream ((List.range 81).map (· % 32) ++
      [25, 14, 12, 26, 12, 24, 24, 19, 1, 18, 15, 20, 14]))) = some (0, [0]) := by decide +kernel
/-- V-S2b. -/
theorem test_lagw : answer (exec (.lagw 16) (onStream [29, 24])) = some (0, [18, 19]) := by decide +kernel
/-- V-D5: `DuplicateShareIndex` before `TargetIndexPresent`. -/
theorem test_lagw_priority : answer (exec (.lagw 29) (onStream [29, 29])) = some (5, []) := by decide
/-- V-D5, n = 7. -/
theorem test_interp : answer (exec (.interp 2 16)
      (onStream [1, 2, 3, 4, 5, 29, 7, 1, 2, 3, 4, 6, 24, 9])) = some (0, [1, 2, 3, 4, 25, 16, 3]) := by
  decide +kernel
/-- V-D5: 13 elements are no two vectors. -/
theorem test_interp_frame : answer (exec (.interp 2 16)
      (onStream [1, 2, 3, 4, 5, 29, 1, 2, 3, 4, 6, 24, 1])) = some (4, []) := by decide

/-! Values that meet the hypotheses of the statements, one theorem for each statement that has some (and
for each of its clauses). -/

theorem witness_DecodeOfEncode : (Instr.interp 31 31).wellFormed = true := by decide

theorem witness_EncodeOfDecode : decode 0x83FF = .ok (.interp 31 31) := by decide

theorem witness_LegalWordsDecode :
    formatOf (opcodeOf 0x9000) = none ∧
      formatOf (opcodeOf 0x4002) = some .f ∧ reservedZero 0x4002 .f = false := by decide

theorem witness_StepRunsDecoded :
    (issued 0x1000 []).phase = .issued ∧ decode (issued 0x1000 []).cw = .ok .cvt58 := by decide

theorem witness_IllegalWordFaults :
    (issued 0x2400 [1]).phase = .issued ∧ legalWord (issued 0x2400 [1]).cw = false := by decide

theorem witness_UnissuedBlockRests :
    State.reset.phase ≠ .issued ∧ (deliver [] State.reset).phase ≠ .issued := by decide

theorem witness_CommandFrame :
    ∃ t, exec (.gfinv 2) (onStream []) = .next t := ⟨_, rfl⟩

theorem witness_CommandFrame_fault :
    ∃ t, exec (.gfinv 0) (onStream []) = .next t ∧ t.st ≠ .ok := ⟨_, rfl, by decide⟩

theorem witness_CompletesWhereNoFaultApplies :
    (∀ f, faultApplies f .cvt58 (onStream [6, 6, 6, 6]).inp = false) ∧
      (∀ f, faultApplies f .cvt58p (onStream [31]).inp = false) ∧
      (∀ f, faultApplies f .cvt85 (onStream [255]).inp = false) ∧
      (∀ f, faultApplies f .cvt85p (onStream [255]).inp = false) ∧
      (∀ f, faultApplies f (.gfmul 31 31) (onStream []).inp = false) ∧
      (∀ f, faultApplies f (.gfinv 1) (onStream []).inp = false) ∧
      (∀ f, faultApplies f .pmods (onStream [31]).inp = false) ∧
      (∀ f, faultApplies f .pmodl (onStream []).inp = false) ∧
      (∀ f, faultApplies f .cksum (onStream [0]).inp = false) ∧
      (∀ f, faultApplies f .verify (onStream [0]).inp = false) ∧
      (∀ f, faultApplies f (.lagw 0) (onStream [31]).inp = false) ∧
      (∀ f, faultApplies f (.interp 1 31) (onStream [0, 0, 0, 0, 0, 0]).inp = false) := by
  refine ⟨?_, ?_, ?_, ?_, ?_, ?_, ?_, ?_, ?_, ?_, ?_, ?_⟩ <;> intro f <;> cases f <;> decide

theorem witness_FirstFaultIsReported :
    ((issued 0x8450 []).phase = .issued ∧ legalWord (issued 0x8450 []).cw = false) ∧
      (issued 0x701D [29, 29]).phase = .issued ∧ decode (issued 0x701D [29, 29]).cw = .ok (.lagw 29) ∧
      faultApplies .targetIndexPresent (.lagw 29) (issued 0x701D [29, 29]).inp = true ∧
      faultApplies .duplicateShareIndex (.lagw 29) (issued 0x701D [29, 29]).inp = true := by decide

theorem witness_ResultDependsOnCwAndInOnly :
    (issued 0x1000 [6, 6]).phase = .issued ∧ (issued 0x1000 [6, 6]).cw = 0x1000 ∧
      (issued 0x1000 [6, 6]).inp = [6, 6] := by decide

theorem witness_BoundedScriptAnswersAllowed :
    (∀ m, some 2 = some m → ([6, 6] : List Byte).length ≤ m) ∧
      lengthAllowed (some 2) ([6, 6] : List Byte).length = true ∧
      lengthAllowed (some 2) ([6, 6, 6] : List Byte).length = false :=
  ⟨fun m h => Option.some.inj h ▸ by decide, by decide, by decide⟩

theorem witness_TransactionsMeetReading : (issued 0x8050 []).phase = .issued := by decide

theorem witness_StepKeepsResultSound :
    (issued 0x3000 []).resultSound ∧ ∃ t, step (issued 0x3000 []) = .next t ∧ t.st ≠ .ok :=
  ⟨fun h => absurd rfl h, _, rfl, by decide⟩

theorem witness_StepKeepsAnswered :
    (issued 0x3001 []).answered ∧ ∃ t, step (issued 0x3001 []) = .next t ∧ t.phase = .complete :=
  ⟨fun h => Phase.noConfusion h, _, rfl, rfl⟩

theorem witness_OutputsInRange :
    ∃ t, exec (.gfinv 19) (onStream []) = .next t ∧ (23 : Byte) ∈ t.out := ⟨_, rfl, by decide⟩

theorem witness_Cvt58RegroupsBits :
    (allSymbols (onStream [6, 31, 0, 31]).inp ∧ 5 * (onStream [6, 31, 0, 31]).inp.length % 8 = 4) ∧
      (allSymbols (onStream []).inp ∧ 5 * (onStream []).inp.length % 8 = 0) ∧
      ¬ allSymbols (onStream [6, 32]).inp ∧
      (allSymbols (onStream [31]).inp ∧ (onStream [31]).inp.length % 8 = 1) ∧
      (allSymbols (onStream [6, 6, 6]).inp ∧ (onStream [6, 6, 6]).inp.length % 8 = 3) ∧
      (allSymbols (onStream [6, 6, 6, 6, 6, 6]).inp ∧
        (onStream [6, 6, 6, 6, 6, 6]).inp.length % 8 = 6) := by decide

theorem witness_OtherConversionsRegroupBits :
    allSymbols (onStream [31, 0]).inp ∧ ¬ allSymbols (onStream [32]).inp := by decide

theorem witness_ConversionLengths :
    (∃ t, t.st = .ok ∧ exec .cvt58 (onStream [6, 6]) = .next t) ∧
      (∃ t, t.st = .ok ∧ exec .cvt58p (onStream [6]) = .next t) ∧
      (∃ t, t.st = .ok ∧ exec .cvt85 (onStream [255]) = .next t) ∧
      (∃ t, t.st = .ok ∧ exec .cvt85p (onStream [255]) = .next t) :=
  ⟨⟨_, rfl, rfl⟩, ⟨_, rfl, rfl⟩, ⟨_, rfl, rfl⟩, ⟨_, rfl, rfl⟩⟩

theorem witness_AccumulatorHoldsLeftover :
    (∃ r', cvtStream 5 8 [6, 31] { State.reset.start with work := cvtInit Work.zero } = .ok r') ∧
      (∃ r', cvtStream 8 5 [255] { State.reset.start with work := cvtInit Work.zero } = .ok r') :=
  ⟨⟨_, rfl⟩, ⟨_, rfl⟩⟩

theorem witness_BytesSurviveRoundTrip :
    (onStream [31, 28]).inp = [31, 28] ∧ answer (exec .cvt85p (onStream [255])) = some (0, [31, 28]) := by
  decide

theorem witness_PayloadRoundTripClearsLeftover :
    allSymbols (onStream [6, 7]).inp ∧ 5 * (onStream [6, 7]).inp.length % 8 = 2 ∧
      (clearLastBits 2 (onStream [6, 7]).inp) = (onStream [6, 4]).inp := by decide

theorem witness_GfmulIsRepeatedDoubling :
    (onStream []).inp = [] ∧ (onStream [1]).inp ≠ [] := by decide

theorem witness_ReducedMAStaysInField : (31 : BitVec 6).toNat < 32 := by decide

theorem witness_GfinvReadsTheTable :
    ((onStream []).inp = [] ∧ (31 : Sym) ≠ 0) ∧ (onStream [0]).inp ≠ [] := by decide

theorem witness_PmodDeliversResidue :
    allSymbols (onStream [15, 31]).inp ∧ ¬ allSymbols (onStream [0, 32]).inp := by decide

theorem witness_NoFeedbackInFirstSteps :
    ([31, 31, 31, 31, 31, 31, 31] : List Sym).length ≤ 7 ∧
      ([0, 0, 0, 0, 0, 0, 0, 0, 31] : List Sym).length ≤ 9 := by decide

theorem witness_RegisterIsLfsrOverField :
    ({ Work.zero with res := 0x1FFFFFFFFFFFFFFFF } : Work).res.toNat < 2 ^ (5 * ckSymbols .short) ∧
      ({ Work.zero with code := .long, res := BitVec.allOnes 75 } : Work).res.toNat <
        2 ^ (5 * ckSymbols .long) := by decide

theorem witness_CksumDeliversChecksum :
    (allSymbols (onStream (List.replicate 80 31)).inp ∧
        (onStream (List.replicate 80 31)).inp.length = 80) ∧
      (allSymbols (onStream (List.replicate 81 31)).inp ∧
        (onStream (List.replicate 81 31)).inp.length = 81) ∧ ¬ allSymbols (onStream [32]).inp := by decide +kernel

theorem witness_VerifyComparesResidue :
    (allSymbols (onStream (List.replicate 93 31)).inp ∧
        (onStream (List.replicate 93 31)).inp.length = 93) ∧
      (allSymbols (onStream (List.replicate 94 1)).inp ∧
        (onStream (List.replicate 94 1)).inp.length = 94) ∧
      (allSymbols (onStream (List.replicate 95 1)).inp ∧
        (onStream (List.replicate 95 1)).inp.length = 95) ∧
      (allSymbols (onStream (List.replicate 96 31)).inp ∧
        (onStream (List.replicate 96 31)).inp.length = 96) ∧ ¬ allSymbols (onStream [32]).inp := by decide +kernel

theorem witness_ChecksummedContentVerifies : allSymbols (onStream [0, 31]).inp := by decide

/-- V-D4: the checksum of the empty content, and its last symbol changed. -/
theorem witness_SingleSymbolChangeDetected :
    exec .verify (onStream [1, 8, 30, 13, 30, 21, 19, 20, 12, 7, 6, 3, 2]) =
        .next (deliver [1] (onStream [1, 8, 30, 13, 30, 21, 19, 20, 12, 7, 6, 3, 2])) ∧
      12 < (onStream [1, 8, 30, 13, 30, 21, 19, 20, 12, 7, 6, 3, 2]).inp.length ∧
      (31 : Byte).toNat < 32 ∧
      (onStream [1, 8, 30, 13, 30, 21, 19, 20, 12, 7, 6, 3, 2]).inp[12]? ≠ some 31 ∧
      (onStream [1, 8, 30, 13, 30, 21, 19, 20, 12, 7, 6, 3, 31]).inp =
        (onStream [1, 8, 30, 13, 30, 21, 19, 20, 12, 7, 6, 3, 2]).inp.set 12 31 := by
  refine ⟨?_, by decide, by decide, by decide, by decide⟩
  rcases verifyRun_cases Config.constants (onStream [1, 8, 30, 13, 30, 21, 19, 20, 12, 7, 6, 3, 2]).inp
    (onStream [1, 8, 30, 13, 30, 21, 19, 20, 12, 7, 6, 3, 2]).start with ⟨-, h, -⟩ | ⟨code, -, h, ho⟩ | ⟨h, -⟩
  · exact absurd h (by decide)
  · obtain rfl : Code.short = code := by
      have : wholeCode Config.constants
        (onStream [1, 8, 30, 13, 30, 21, 19, 20, 12, 7, 6, 3, 2]).inp.length = some .short := by decide
      exact Option.some.inj (this.symm.trans h)
    have hres : residue Config.constants .short
        ((onStream [1, 8, 30, 13, 30, 21, 19, 20, 12, 7, 6, 3, 2]).inp.map byteToSym) =
        target Config.constants .short := by decide +kernel
    rw [if_pos hres] at ho
    exact conclude_congr (o' := .ok { work := Work.zero, out := [1] }) _ ho
  · exact absurd h (by decide)

theorem witness_LagwDeliversWeights :
    ((onStream [0, 1]).inp ≠ [] ∧ allSymbols (onStream [0, 1]).inp ∧
        ((onStream [0, 1]).inp.map byteToSym).Nodup ∧ (5 : Sym) ∉ (onStream [0, 1]).inp.map byteToSym) ∧
      allSymbols (onStream (List.range 31)).inp ∧
        ((onStream (List.range 31)).inp.map byteToSym).Nodup ∧
        (31 : Sym) ∉ (onStream (List.range 31)).inp.map byteToSym := by decide +kernel

/-- One stream for each fault of `LAGW 5`. -/
theorem witness_LagwDeliversWeights_faults :
    (onStream []).inp = [] ∧ (onStream [32]).inp ≠ [] ∧ ¬ allSymbols (onStream [32]).inp ∧
      (allSymbols (onStream [5, 31, 5]).inp ∧ ¬ ((onStream [5, 31, 5]).inp.map byteToSym).Nodup) ∧
      allSymbols (onStream [31, 5]).inp ∧ ((onStream [31, 5]).inp.map byteToSym).Nodup ∧
        (5 : Sym) ∈ (onStream [31, 5]).inp.map byteToSym := by decide

theorem witness_FormsDifferAtPresentTarget : ([3, 0, 7] : List Sym).Nodup ∧ (0 : Sym) ∈ ([3, 0, 7] : List Sym) := by
  decide

theorem witness_WeightsXorToOne :
    ([29, 24] : List Sym) ≠ [] ∧ ([29, 24] : List Sym).Nodup ∧ (16 : Sym) ∉ ([29, 24] : List Sym) := by
  decide

/-- V-D5's two vectors. -/
def twoVectors : List Nat := [1, 2, 3, 4, 5, 29, 1, 2, 3, 4, 6, 24]

theorem witness_InterpDeliversVector :
    1 ≤ (2 : Sym).toNat ∧ (onStream twoVectors).inp.length % (2 : Sym).toNat = 0 ∧
      6 ≤ (onStream twoVectors).inp.length / (2 : Sym).toNat ∧ allSymbols (onStream twoVectors).inp ∧
      ((interpVectors 2 (onStream twoVectors).inp).map xCoordinate).Nodup ∧
      (16 : Sym) ∉ (interpVectors 2 (onStream twoVectors).inp).map xCoordinate := by decide

/-- One stream for each fault of `INTERP 2, 29`. -/
theorem witness_InterpDeliversVector_faults :
    (onStream (List.replicate 13 1)).inp.length % (2 : Sym).toNat ≠ 0 ∧
      (onStream (List.replicate 10 1)).inp.length / (2 : Sym).toNat < 6 ∧
      ((onStream (List.replicate 12 32)).inp.length / (2 : Sym).toNat = 6 ∧
        ¬ allSymbols (onStream (List.replicate 12 32)).inp) ∧
      (allSymbols (onStream (List.replicate 12 1)).inp ∧
        ¬ ((interpVectors 2 (onStream (List.replicate 12 1)).inp).map xCoordinate).Nodup) ∧
      ((interpVectors 2 (onStream twoVectors).inp).map xCoordinate).Nodup ∧
        (29 : Sym) ∈ (interpVectors 2 (onStream twoVectors).inp).map xCoordinate := by decide

theorem witness_SingleVectorComesBack :
    6 ≤ (onStream [1, 2, 3, 4, 5, 29]).inp.length ∧ allSymbols (onStream [1, 2, 3, 4, 5, 29]).inp ∧
      (onStream [1, 2, 3, 4, 5, 29]).inp[5]? ≠ some (symToByte 16) := by decide

/-- `INTERP 2, x` on V-D5's vectors completes for every target but their x-coordinates. -/
theorem interp_twoVectors_next (inp : List Nat) (x : Sym)
    (hf : interpFrame 2 (onStream inp).inp = true) (hr : allSymbols (onStream inp).inp)
    (hnd : ((interpVectors 2 (onStream inp).inp).map xCoordinate).Nodup)
    (hx : x ∉ (interpVectors 2 (onStream inp).inp).map xCoordinate) :
    ∃ t, exec (.interp 2 x) (onStream inp) = .next t ∧ t.st = .ok := by
  have h := interpRun_ok Config.constants (onStream inp).start hf hr hnd hx
  exact ⟨_, conclude_congr (o' := .ok { work := Work.zero, out := _ }) _ h, rfl⟩

theorem witness_AgreedPositionsPassThrough :
    (∃ t, exec (.interp 2 16) (onStream twoVectors) = .next t ∧ t.st = .ok) ∧
      0 < (onStream twoVectors).inp.length / (2 : Sym).toNat ∧
      ∀ j, j < (2 : Sym).toNat →
        (onStream twoVectors).inp[j * ((onStream twoVectors).inp.length / (2 : Sym).toNat) + 0]? =
          some 1 :=
  ⟨interp_twoVectors_next twoVectors 16 (by decide) (by decide) (by decide) (by decide), by decide,
    by decide⟩

/-- Position 5 of V-D5's vectors lies on the polynomial `x`, position 0 on the constant 1. -/
theorem witness_PolynomialIsRecovered :
    (∃ t, exec (.interp 2 16) (onStream twoVectors) = .next t ∧ t.st = .ok) ∧
      5 < (onStream twoVectors).inp.length / (2 : Sym).toNat ∧
      ([0, 1] : List Sym).length ≤ (2 : Sym).toNat ∧
      (∀ v ∈ interpVectors 2 (onStream twoVectors).inp,
        v.getD 5 0 = polynomialAt Config.constants [0, 1] (xCoordinate v)) ∧
      ∀ v ∈ interpVectors 2 (onStream twoVectors).inp,
        v.getD 0 0 = polynomialAt Config.constants [1] (xCoordinate v) :=
  ⟨interp_twoVectors_next twoVectors 16 (by decide) (by decide) (by decide) (by decide), by decide,
    by decide, by decide +kernel, by decide +kernel⟩

theorem witness_IndexPositionIsTarget :
    2 ≤ (2 : Sym).toNat ∧ ∃ t, exec (.interp 2 16) (onStream twoVectors) = .next t ∧ t.st = .ok :=
  ⟨by decide, interp_twoVectors_next twoVectors 16 (by decide) (by decide) (by decide) (by decide)⟩

/-- V-D5's vectors with position 0 of the first changed: lane 4 is as it was. -/
theorem witness_LanesAreIndependent :
    (∃ t, exec (.interp 2 16) (onStream twoVectors) = .next t ∧ t.st = .ok) ∧
      (∃ t, exec (.interp 2 16) (onStream (twoVectors.set 0 9)) = .next t ∧ t.st = .ok) ∧
      (onStream twoVectors).inp.length = (onStream (twoVectors.set 0 9)).inp.length ∧
      4 < (onStream twoVectors).inp.length / (2 : Sym).toNat ∧
      ∀ j, j < (2 : Sym).toNat →
        (onStream twoVectors).inp[j * 6 + 5]? = (onStream (twoVectors.set 0 9)).inp[j * 6 + 5]? ∧
        (onStream twoVectors).inp[j * 6 + 4]? = (onStream (twoVectors.set 0 9)).inp[j * 6 + 4]? :=
  ⟨interp_twoVectors_next twoVectors 16 (by decide) (by decide) (by decide) (by decide),
    interp_twoVectors_next (twoVectors.set 0 9) 16 (by decide) (by decide) (by decide) (by decide),
    by decide, by decide, by decide⟩

theorem witness_VectorOrderImmaterial :
    (onStream twoVectors).inp.length =
        (onStream [1, 2, 3, 4, 6, 24, 1, 2, 3, 4, 5, 29]).inp.length ∧
      allSymbols (onStream twoVectors).inp ∧
      allSymbols (onStream [1, 2, 3, 4, 6, 24, 1, 2, 3, 4, 5, 29]).inp ∧
      (interpVectors 2 (onStream twoVectors).inp).Perm
        (interpVectors 2 (onStream [1, 2, 3, 4, 6, 24, 1, 2, 3, 4, 5, 29]).inp) ∧
      (∃ t, exec (.interp 2 16) (onStream twoVectors) = .next t) ∧
      ∃ t, exec (.interp 2 16) (onStream [1, 2, 3, 4, 6, 24, 1, 2, 3, 4, 5, 29]) = .next t :=
  ⟨by decide, by decide, by decide, List.Perm.swap _ _ [],
    (interp_twoVectors_next twoVectors 16 (by decide) (by decide) (by decide) (by decide)).imp
      fun _ h => h.1,
    (interp_twoVectors_next [1, 2, 3, 4, 6, 24, 1, 2, 3, 4, 5, 29] 16 (by decide) (by decide) (by decide)
      (by decide)).imp fun _ h => h.1⟩

/-- The vector at 13 derived from V-D5's two, by `LAGW 13 <- [29, 24]` => `[12, 13]` (V-S2d): position 4 is
12·5 ^ 13·6 = 21 ^ 7 = 18 by the table V-D1, the others agree, position 5 is the target. -/
theorem witness_DerivedShareRecombines :
    2 ≤ (2 : Sym).toNat ∧ 0 < (2 : Sym).toNat ∧
      (∃ t, exec (.interp 2 13) (onStream twoVectors) = .next t ∧ t.st = .ok ∧
        (onStream [1, 2, 3, 4, 18, 13, 1, 2, 3, 4, 6, 24]).inp =
          replaceVector 2 0 t.out (onStream twoVectors).inp) ∧
      (∃ u, exec (.interp 2 16) (onStream twoVectors) = .next u ∧ u.st = .ok) ∧
      ∃ v, exec (.interp 2 16) (onStream [1, 2, 3, 4, 18, 13, 1, 2, 3, 4, 6, 24]) = .next v ∧
        v.st = .ok := by
  refine ⟨by decide, by decide, ?_,
    interp_twoVectors_next twoVectors 16 (by decide) (by decide) (by decide) (by decide),
    interp_twoVectors_next [1, 2, 3, 4, 18, 13, 1, 2, 3, 4, 6, 24] 16 (by decide) (by decide) (by decide)
      (by decide)⟩
  have h := interpRun_ok Config.constants (k := 2) (x := 13) (inp := (onStream twoVectors).inp)
    (onStream twoVectors).start (by decide) (by decide) (by decide) (by decide)
  exact ⟨_, conclude_congr (o' := .ok { work := Work.zero, out := _ }) _ h, rfl, by decide +kernel⟩

/-! Constants other than the machine's that have the properties of R191: the field of `REDUCE` = 37, one of
the six candidates of V-S2c, with its own inverse table. -/

/-- The constants of the field of x^5 + x^2 + 1. -/
def constants37 : Constants :=
  { Config.constants with
    reduce := 37
    inv := #v[0, 1, 18, 28, 9, 23, 14, 12, 22, 4, 25, 16, 7, 15, 6, 13,
              11, 24, 2, 29, 30, 26, 8, 5, 17, 10, 21, 31, 3, 19, 20, 27] }

theorem constants37_comm : ∀ a b, gfmul constants37 a b = gfmul constants37 b a := by decide +kernel

theorem constants37_assoc_basis : ∀ a ∈ symBasis, ∀ d ∈ symBasis, ∀ b : Sym,
    gfmul constants37 (gfmul constants37 a b) d = gfmul constants37 a (gfmul constants37 b d) := by
  decide +kernel

theorem constants37_assoc (a b d : Sym) :
    gfmul constants37 (gfmul constants37 a b) d = gfmul constants37 a (gfmul constants37 b d) := by
  have hz : ∀ a, gfmul constants37 a 0 = 0 ∧ gfmul constants37 0 a = 0 := by decide +kernel
  refine sym_linear_induction (fun a => gfmul constants37 (gfmul constants37 a b) d =
    gfmul constants37 a (gfmul constants37 b d)) (by simp only [hz]) ?_ ?_ a
  · intro a ha
    refine sym_linear_induction (fun d => gfmul constants37 (gfmul constants37 a b) d =
      gfmul constants37 a (gfmul constants37 b d)) (by simp only [hz])
      (fun d hd => constants37_assoc_basis a ha d hd b) ?_ d
    intro d e hd he
    simp only [gfmul_xor_right, hd, he]
  · intro a a' h h'
    simp only [gfmul_xor_left, h, h']

theorem witness_ArrangementGivesClosedForm :
    ValidConstants constants37 ∧ ([29, 24] : List Sym).Nodup ∧ (16 : Sym) ∉ ([29, 24] : List Sym) :=
  ⟨{ reduce_bit5 := by decide
     field :=
      { comm := constants37_comm
        assoc := constants37_assoc
        distrib := gfmul_xor_right constants37
        one_mul := by decide +kernel
        eq_zero := by decide +kernel
        inverse_unique := by decide +kernel }
     inv_zero := by decide }, by decide, by decide⟩

end Sys2Proof.Tests
end

/-! The converter: the register pair `ACC`, `NB` as a bit string, and the streaming loop of R70 as a
regrouping of one bit string (R33). -/

namespace Sys2Proof.Machine

/-! Bit strings and their values (R33). -/

theorem foldl_bitsValue (bits : List Bool) (v : Nat) :
    bits.foldl (fun v b => 2 * v + b.toNat) v = v * 2 ^ bits.length + bitsValue bits := by
  induction bits generalizing v with
  | nil => simp [bitsValue]
  | cons b rest ih =>
    rw [bitsValue, List.foldl_cons, List.foldl_cons, ih, ih (2 * 0 + b.toNat), List.length_cons]
    ring

@[simp] theorem bitsValue_nil : bitsValue [] = 0 := rfl

theorem bitsValue_cons (b : Bool) (bits : List Bool) :
    bitsValue (b :: bits) = b.toNat * 2 ^ bits.length + bitsValue bits := by
  rw [bitsValue, List.foldl_cons, foldl_bitsValue, Nat.mul_zero, Nat.zero_add]

theorem bitsValue_append (a b : List Bool) :
    bitsValue (a ++ b) = bitsValue a * 2 ^ b.length + bitsValue b := by
  rw [bitsValue, List.foldl_append, foldl_bitsValue, ← bitsValue]

theorem bitsValue_lt (bits : List Bool) : bitsValue bits < 2 ^ bits.length := by
  induction bits with
  | nil => simp
  | cons b rest ih =>
    rw [bitsValue_cons, List.length_cons, Nat.pow_succ]
    cases b <;> simp <;> omega

@[simp] theorem bitsValue_replicate_false (n : Nat) : bitsValue (List.replicate n false) = 0 := by
  induction n with
  | zero => rfl
  | succ n ih => simp [List.replicate_succ, bitsValue_cons, ih]

@[simp] theorem groupBits_length (f : Nat) (v : Byte) : (groupBits f v).length = f := by
  simp [groupBits]

theorem groupBits_succ (f : Nat) (v : Byte) :
    groupBits (f + 1) v = v.getLsbD f :: groupBits f v := by
  have index : ∀ k, f + 1 - 1 - (k + 1) = f - 1 - k := by omega
  simp only [groupBits, List.range_succ_eq_map, List.map_cons, List.map_map, Function.comp_def,
    Nat.succ_eq_add_one, index]
  rfl

theorem bitsValue_groupBits (f : Nat) (v : Byte) : bitsValue (groupBits f v) = v.toNat % 2 ^ f := by
  induction f with
  | zero => simp [groupBits, Nat.mod_one]
  | succ f ih =>
    rw [groupBits_succ, bitsValue_cons, ih, groupBits_length, Nat.mod_pow_succ, BitVec.getLsbD,
      Nat.toNat_testBit]
    ring

@[simp] theorem bitString_nil (f : Nat) : bitString f [] = [] := rfl

@[simp] theorem bitString_cons (f : Nat) (v : Byte) (data : List Byte) :
    bitString f (v :: data) = groupBits f v ++ bitString f data := rfl

@[simp] theorem bitString_length (f : Nat) (data : List Byte) :
    (bitString f data).length = f * data.length := by
  induction data with
  | nil => rfl
  | cons v rest ih => simp only [bitString_cons, List.length_append, groupBits_length, ih,
      List.length_cons]; ring

/-! Cutting groups off the left of a string, and what is left over (R33). -/

/-- The digits left over when the whole groups of `t` are cut from the left of a string (R33). -/
def leftoverBits (t : Nat) (bits : List Bool) : List Bool := bits.drop (bits.length / t * t)

theorem leftoverBits_length (t : Nat) (bits : List Bool) :
    (leftoverBits t bits).length = bits.length % t := by
  have := Nat.div_add_mod' bits.length t
  simp only [leftoverBits, List.length_drop]
  omega

theorem cutGroups_of_lt {t : Nat} {bits : List Bool} (h : bits.length < t) :
    cutGroups t bits = [] := by
  simp [cutGroups, Nat.div_eq_of_lt h]

theorem leftoverBits_of_lt {t : Nat} {bits : List Bool} (h : bits.length < t) :
    leftoverBits t bits = bits := by
  simp [leftoverBits, Nat.div_eq_of_lt h]

theorem cutGroups_of_le {t : Nat} {bits : List Bool} (ht : 0 < t) (h : t ≤ bits.length) :
    cutGroups t bits =
      BitVec.ofNat 8 (bitsValue (bits.take t)) :: cutGroups t (bits.drop t) := by
  simp only [cutGroups, List.length_drop, Nat.div_eq_sub_div ht h, List.range_succ_eq_map,
    List.map_cons, List.map_map, Nat.zero_mul, List.drop_zero, List.drop_drop]
  simp only [Function.comp_def, Nat.succ_mul, Nat.add_comm t]

theorem leftoverBits_of_le {t : Nat} {bits : List Bool} (ht : 0 < t) (h : t ≤ bits.length) :
    leftoverBits t bits = leftoverBits t (bits.drop t) := by
  simp only [leftoverBits, List.length_drop, Nat.div_eq_sub_div ht h, List.drop_drop, Nat.succ_mul,
    Nat.add_comm t]

/-- The groups of a string that is continued: those of the beginning, then those of its leftover
continued. -/
theorem cutGroups_append {t : Nat} (ht : 0 < t) (a b : List Bool) :
    cutGroups t (a ++ b) = cutGroups t a ++ cutGroups t (leftoverBits t a ++ b) ∧
      leftoverBits t (a ++ b) = leftoverBits t (leftoverBits t a ++ b) := by
  by_cases h : t ≤ a.length
  · have hab : t ≤ (a ++ b).length := by rw [List.length_append]; omega
    obtain ⟨hcut, hleft⟩ := cutGroups_append ht (a.drop t) b
    rw [cutGroups_of_le ht hab, cutGroups_of_le ht h, leftoverBits_of_le ht hab,
      leftoverBits_of_le ht h, List.take_append_of_le_length h, List.drop_append_of_le_length h, hcut,
      hleft]
    exact ⟨rfl, rfl⟩
  · rw [cutGroups_of_lt (Nat.lt_of_not_le h), leftoverBits_of_lt (Nat.lt_of_not_le h)]
    exact ⟨rfl, rfl⟩
termination_by a.length
decreasing_by simp only [List.length_drop]; omega

/-! The converter's registers as a bit string (R15). -/

/-- `ACC` and `NB` hold a string of bits, the oldest the most significant (R15). -/
structure HoldsBits (w : Work) (bits : List Bool) : Prop where
  nb : w.nb.val = bits.length
  acc : w.acc.toNat = bitsValue bits

theorem holdsBits_cvtInit (w : Work) : HoldsBits (cvtInit w) [] := ⟨rfl, rfl⟩

theorem HoldsBits.length_le {w : Work} {bits : List Bool} (h : HoldsBits w bits) :
    bits.length ≤ 12 := by
  have := w.nb.isLt
  have := h.nb
  omega

theorem lowBits_toNat {n : Nat} (hn : n ≤ 12) (a : BitVec 12) :
    (lowBits n a).toNat = a.toNat % 2 ^ n := by
  have hpow : 2 ^ n ≤ 2 ^ 12 := Nat.pow_le_pow_right (by omega) hn
  rw [lowBits, BitVec.toNat_and, BitVec.toNat_ofNat, Nat.mod_eq_of_lt (by omega),
    Nat.and_two_pow_sub_one_eq_mod]

/-- An input group enters behind the bits held. -/
theorem HoldsBits.shiftIn {w : Work} {bits : List Bool} {f : Nat} {v : Byte} (h : HoldsBits w bits)
    (hf : bits.length + f ≤ 12) (hv : v.toNat < 2 ^ f) :
    HoldsBits (cvtShiftIn f v w) (bits ++ groupBits f v) := by
  have hlt : bitsValue bits * 2 ^ f < 2 ^ 12 := calc
    bitsValue bits * 2 ^ f < 2 ^ bits.length * 2 ^ f :=
      Nat.mul_lt_mul_of_pos_right (bitsValue_lt bits) (Nat.two_pow_pos f)
    _ = 2 ^ (bits.length + f) := (Nat.pow_add ..).symm
    _ ≤ 2 ^ 12 := Nat.pow_le_pow_right (by omega) hf
  have hv12 : v.toNat < 2 ^ 12 := Nat.lt_trans v.isLt (by decide)
  constructor
  · have := h.nb
    simp only [cvtShiftIn, Fin.ofNat, List.length_append, groupBits_length]
    omega
  · simp only [cvtShiftIn, BitVec.toNat_or, BitVec.toNat_shiftLeft, BitVec.toNat_setWidth, h.acc,
      Nat.shiftLeft_eq, Nat.mod_eq_of_lt hlt, Nat.mod_eq_of_lt hv12]
    rw [← Nat.shiftLeft_eq, ← Nat.shiftLeft_add_eq_or_of_lt hv, Nat.shiftLeft_eq, bitsValue_append,
      bitsValue_groupBits, groupBits_length, Nat.mod_eq_of_lt hv]

/-- An output group is the oldest `t` bits held, and the others stay. -/
theorem HoldsBits.emitGroup {r : Run} {bits : List Bool} {t : Nat} (h : HoldsBits r.work bits)
    (ht : t ≤ bits.length) :
    (cvtEmitGroup t r).out = r.out ++ [BitVec.ofNat 8 (bitsValue (bits.take t))] ∧
      HoldsBits (cvtEmitGroup t r).work (bits.drop t) := by
  have hacc : r.work.acc.toNat =
      bitsValue (bits.take t) * 2 ^ (bits.length - t) + bitsValue (bits.drop t) := by
    rw [h.acc, ← List.length_drop, ← bitsValue_append, List.take_append_drop]
  have hdrop : bitsValue (bits.drop t) < 2 ^ (bits.length - t) :=
    List.length_drop (l := bits) ▸ bitsValue_lt (bits.drop t)
  have hlen := h.length_le
  simp only [cvtEmitGroup, h.nb, emit_out, emit_work]
  refine ⟨?_, ?_, ?_⟩
  · congr 2
    apply BitVec.eq_of_toNat_eq
    rw [BitVec.toNat_setWidth, BitVec.toNat_ushiftRight, Nat.shiftRight_eq_div_pow, hacc,
      Nat.mul_comm, Nat.mul_add_div (Nat.two_pow_pos _), Nat.div_eq_of_lt hdrop, Nat.add_zero,
      BitVec.toNat_ofNat]
  · simp only [Fin.ofNat, List.length_drop]
    omega
  · change (lowBits _ _).toNat = _
    rw [lowBits_toNat (by omega), hacc, Nat.mul_add_mod_of_lt hdrop]

/-- The drain cuts every whole group off the bits held. -/
theorem HoldsBits.drain {t : Nat} (ht : 0 < t) (rounds : Nat) {r : Run} {bits : List Bool}
    (h : HoldsBits r.work bits) (hrounds : bits.length ≤ rounds) :
    (cvtDrain t rounds r).out = r.out ++ cutGroups t bits ∧
      HoldsBits (cvtDrain t rounds r).work (leftoverBits t bits) := by
  induction rounds generalizing r bits with
  | zero =>
    have hlt : bits.length < t := by omega
    rw [cutGroups_of_lt hlt, leftoverBits_of_lt hlt, List.append_nil]
    exact ⟨rfl, h⟩
  | succ n ih =>
    rw [cvtDrain, h.nb]
    by_cases hle : t ≤ bits.length
    · obtain ⟨hout, hheld⟩ := h.emitGroup hle
      obtain ⟨hout', hheld'⟩ := ih hheld (by rw [List.length_drop]; omega)
      rw [if_pos hle, cutGroups_of_le ht hle, leftoverBits_of_le ht hle, hout', hout]
      exact ⟨by simp, hheld'⟩
    · rw [if_neg hle, cutGroups_of_lt (Nat.lt_of_not_le hle), leftoverBits_of_lt (Nat.lt_of_not_le hle),
        List.append_nil]
      exact ⟨rfl, h⟩

/-- The streaming loop of R70 cuts the groups off the bits held, continued by the stream. -/
theorem HoldsBits.stream {f t : Nat} (ht : 0 < t) (hft : f + t ≤ 13) (data : List Byte)
    (hr : ∀ v ∈ data, v.toNat < 2 ^ f) {r : Run} {bits : List Bool} (h : HoldsBits r.work bits)
    (hlt : bits.length < t) :
    ∃ r', cvtStream f t data r = .ok r' ∧
      r'.out = r.out ++ cutGroups t (bits ++ bitString f data) ∧
      HoldsBits r'.work (leftoverBits t (bits ++ bitString f data)) := by
  induction data generalizing r bits with
  | nil =>
    rw [bitString_nil, List.append_nil, cutGroups_of_lt hlt, leftoverBits_of_lt hlt, List.append_nil]
    exact ⟨r, rfl, rfl, h⟩
  | cons v rest ih =>
    have hv : v.toNat < 2 ^ f := hr v (by simp)
    have hin := h.shiftIn (f := f) (v := v) (by omega) hv
    obtain ⟨hout, hheld⟩ := hin.drain (r := { r with work := cvtShiftIn f v r.work }) ht _ hin.nb.ge
    obtain ⟨r', hok, hout', hheld'⟩ := ih (fun u hu => hr u (by simp [hu])) hheld
      (by rw [leftoverBits_length]; exact Nat.mod_lt _ ht)
    obtain ⟨hcut, hleft⟩ := cutGroups_append ht (bits ++ groupBits f v) (bitString f rest)
    refine ⟨r', ?_, ?_, ?_⟩
    · rw [cvtStream, if_neg (Nat.not_le.mpr hv)]
      exact hok
    · rw [hout', hout, bitString_cons, ← List.append_assoc bits, hcut, List.append_assoc]
    · rwa [bitString_cons, ← List.append_assoc, hleft]

/-! A whole conversion (R70). -/

/-- The padded last group: the bits left over, completed with zeros. -/
theorem cutGroups_padding {t : Nat} (ht : 0 < t) (bits : List Bool) :
    cutGroups t (bits ++ padding t bits) = cutGroups t bits ++
      if bits.length % t = 0 then []
      else [BitVec.ofNat 8 (bitsValue (leftoverBits t bits) * 2 ^ (t - bits.length % t))] := by
  have hmod := Nat.mod_lt bits.length ht
  have hlen := leftoverBits_length t bits
  rw [(cutGroups_append ht bits (padding t bits)).1]
  congr 1
  by_cases h0 : bits.length % t = 0
  · rw [if_pos h0, cutGroups_of_lt]
    simpa [padding, h0, hlen] using ht
  · have hpad : (t - bits.length % t) % t = t - bits.length % t := Nat.mod_eq_of_lt (by omega)
    have hfull : (leftoverBits t bits ++ padding t bits).length = t := by
      simp only [padding, List.length_append, hlen, List.length_replicate, hpad]
      omega
    rw [if_neg h0, cutGroups_of_le ht hfull.ge, List.take_of_length_le hfull.le,
      List.drop_eq_nil_of_le hfull.le, cutGroups_of_lt (by simpa using ht), bitsValue_append]
    simp [padding, hpad]

/-- The end of a padded conversion emits the bits held, completed with zeros, where there are any. -/
theorem HoldsBits.endPad {f t : Nat} (ht : t ≤ 8) {r : Run} {bits : List Bool}
    (h : HoldsBits r.work bits) (hlt : bits.length < t) :
    (cvtEnd f t true r).map Run.out = .ok (r.out ++
      if bits.length = 0 then []
      else [BitVec.ofNat 8 (bitsValue bits * 2 ^ (t - bits.length))]) := by
  by_cases h0 : bits.length = 0
  · simp [cvtEnd, h.nb, h0, Except.map]
  · have hval : bitsValue bits * 2 ^ (t - bits.length) < 2 ^ t := calc
      bitsValue bits * 2 ^ (t - bits.length) < 2 ^ bits.length * 2 ^ (t - bits.length) :=
        Nat.mul_lt_mul_of_pos_right (bitsValue_lt bits) (Nat.two_pow_pos _)
      _ = 2 ^ t := by rw [← Nat.pow_add, Nat.add_sub_cancel' hlt.le]
    have h12 : 2 ^ t ≤ 2 ^ 12 := Nat.pow_le_pow_right (by omega) (by omega)
    have hgroup : (lowBits t (r.work.acc <<< (t - bits.length))).setWidth 8 =
        BitVec.ofNat 8 (bitsValue bits * 2 ^ (t - bits.length)) := by
      apply BitVec.eq_of_toNat_eq
      rw [BitVec.toNat_setWidth, lowBits_toNat (by omega), BitVec.toNat_shiftLeft, h.acc,
        Nat.shiftLeft_eq, Nat.mod_eq_of_lt (Nat.lt_of_lt_of_le hval h12), Nat.mod_eq_of_lt hval,
        BitVec.toNat_ofNat]
    simp only [cvtEnd, h.nb, if_true, if_pos (Nat.pos_of_ne_zero h0), if_neg h0, hgroup, Except.map,
      emit_out]

/-- A conversion in range that is padded, or leaves fewer than `f` bits over, regroups the stream's bit
string (R70, R33). -/
theorem convertRun_ok {f t : Nat} (ht : 0 < t) (ht8 : t ≤ 8) (hft : f + t ≤ 13) {data : List Byte}
    (hr : ∀ v ∈ data, v.toNat < 2 ^ f) (pad : Bool) (hend : pad = true ∨ f * data.length % t < f)
    (r : Run) :
    (convertRun f t pad data r).map Run.out = .ok (r.out ++ regroup f t pad data) := by
  obtain ⟨r', hok, hout, hheld⟩ :=
    (holdsBits_cvtInit r.work).stream (r := { r with work := cvtInit r.work }) ht hft data hr ht
  rw [List.nil_append] at hout hheld
  have hlen := leftoverBits_length t (bitString f data)
  simp only [convertRun, hok]
  cases pad with
  | true =>
    rw [hheld.endPad ht8 (by rw [hlen]; exact Nat.mod_lt _ ht), hout, hlen, List.append_assoc,
      ← cutGroups_padding ht]
    rfl
  | false =>
    have hnb : ¬ f ≤ r'.work.nb.val := by
      rw [hheld.nb, hlen, bitString_length]
      simpa using hend
    simp [cvtEnd, hnb, Except.map, hout, regroup]

/-- A conversion without padding that leaves `f` bits or more over is `IncompleteGroup` (R70). -/
theorem convertRun_incompleteGroup {f t : Nat} (ht : 0 < t) (hft : f + t ≤ 13) {data : List Byte}
    (hr : ∀ v ∈ data, v.toNat < 2 ^ f) (hend : f ≤ f * data.length % t) (r : Run) :
    convertRun f t false data r = .error .incompleteGroup := by
  obtain ⟨r', hok, hnb⟩ := cvtStream_nb ht hft data hr { r with work := cvtInit r.work } ht
  have hle : f ≤ r'.work.nb.val := by
    rw [hnb]
    simpa [cvtInit] using hend
  simp [convertRun, hok, cvtEnd, hle]

/-- A conversion out of range is `ValueRange` (R70, R43). -/
theorem convertRun_valueRange {f t : Nat} (pad : Bool) {data : List Byte}
    (h : ∃ v ∈ data, 2 ^ f ≤ v.toNat) (r : Run) :
    convertRun f t pad data r = .error .valueRange := by
  simp only [convertRun, cvtStream_error data h]

end Sys2Proof.Machine

/-! The checksum register read as an integer (R100, R34). -/

namespace Sys2Proof.Machine

/-- The bits below the top five of a register (R100). -/
theorem mask_toNat (code : Code) (res : BitVec 75) :
    (res &&& BitVec.ofNat 75 (2 ^ (regWidth code - 5) - 1)).toNat =
      res.toNat % 2 ^ (regWidth code - 5) := by
  have hmask : 2 ^ (regWidth code - 5) - 1 < 2 ^ 75 := by cases code <;> decide
  rw [BitVec.toNat_and, BitVec.toNat_ofNat, Nat.mod_eq_of_lt hmask, Nat.and_two_pow_sub_one_eq_mod]

theorem shifted_toNat (code : Code) (res : BitVec 75) (s : Sym) :
    (shifted code res s).toNat = res.toNat % 2 ^ (regWidth code - 5) * 32 + s.toNat := by
  have hfit : res.toNat % 2 ^ (regWidth code - 5) * 2 ^ 5 < 2 ^ 75 := by
    have := Nat.mod_lt res.toNat (Nat.two_pow_pos (regWidth code - 5))
    have : 2 ^ (regWidth code - 5) ≤ 2 ^ 70 := by cases code <;> decide
    omega
  have hs75 : s.toNat < 2 ^ 75 := Nat.lt_trans s.isLt (by decide)
  rw [shifted, BitVec.toNat_or, BitVec.toNat_shiftLeft, mask_toNat, BitVec.toNat_setWidth,
    Nat.shiftLeft_eq, Nat.mod_eq_of_lt hfit, Nat.mod_eq_of_lt hs75, ← Nat.shiftLeft_eq,
    ← Nat.shiftLeft_add_eq_or_of_lt s.isLt, Nat.shiftLeft_eq]

/-- The bits of `TOP` are the top five of the register (R100). -/
theorem getLsbD_topOf (code : Code) (res : BitVec 75) (i : Fin 5) :
    (topOf code res).getLsbD i = (res.toNat / 2 ^ (regWidth code - 5)).testBit i := by
  rw [topOf, BitVec.getLsbD, BitVec.toNat_setWidth, Nat.testBit_mod_two_pow, BitVec.toNat_ushiftRight,
    Nat.shiftRight_eq_div_pow]
  simp [i.isLt]

theorem generatorsNat_getD (c : Constants) (code : Code) (i : Fin 5) :
    (generatorsNat c code).getD i 0 = (generator c code i).toNat := by
  cases code with
  | short =>
    have := (c.genS.get i).isLt
    simp [generatorsNat, generator, Vector.get]
    omega
  | long => simp [generatorsNat, generator, Vector.get]

theorem targetNat_eq (c : Constants) (code : Code) : targetNat c code = (target c code).toNat := by
  cases code with
  | short =>
    have := c.targetS.isLt
    simp [targetNat, target]
    omega
  | long => rfl

/-- One feedback term of the integer step (R100). -/
theorem xor_feedbackTerm_toNat (c : Constants) (code : Code) (res v : BitVec 75) (i : Fin 5) :
    (v ^^^ feedbackTerm c code (topOf code res) i).toNat =
      if (res.toNat / 2 ^ (regWidth code - 5)).testBit i then
        v.toNat ^^^ (generatorsNat c code).getD i 0 else v.toNat := by
  rw [feedbackTerm, getLsbD_topOf, generatorsNat_getD]
  split
  · exact BitVec.toNat_xor ..
  · simp

theorem residueStep_toNat (c : Constants) (code : Code) (res : BitVec 75) (s : Sym) :
    (residueStep c code res s).toNat =
      residueStepNat (regWidth code) (generatorsNat c code) res.toNat s.toNat := by
  have hrange : List.range 5 = [(0 : Fin 5), 1, 2, 3, 4].map Fin.val := by decide
  rw [residueStepNat, ← shifted_toNat, hrange, List.foldl_map]
  simp only [residueStep, feedback, ← BitVec.xor_assoc, List.foldl_cons, List.foldl_nil,
    xor_feedbackTerm_toNat]

/-- The residue of a sequence is the integer recurrence's (R100). -/
theorem residue_toNat (c : Constants) (code : Code) (syms : List Sym) :
    (residue c code syms).toNat = polymodNat c code (syms.map BitVec.toNat) := by
  have hinit : (c.init.setWidth 75).toNat = c.init.toNat := by
    have := c.init.isLt
    rw [BitVec.toNat_setWidth]
    omega
  rw [residue, polymodNat, ← hinit]
  generalize c.init.setWidth 75 = res
  induction syms generalizing res with
  | nil => rfl
  | cons s rest ih => simp only [List.foldl_cons, List.map_cons, ih, residueStep_toNat]

/-- The groups of a residue as elements (R34, R32). -/
theorem groupsNat_toNat (code : Code) (res : BitVec 75) :
    groupsNat code res.toNat = (residueGroups code res).map symToByte := by
  rw [groupsNat, residueGroups, List.map_map]
  refine List.map_congr_left fun g _ => BitVec.eq_of_toNat_eq ?_
  rw [Function.comp_apply, symToByte_toNat, residueGroup, BitVec.toNat_setWidth,
    BitVec.toNat_ushiftRight, Nat.shiftRight_eq_div_pow, BitVec.toNat_ofNat]
  exact Nat.mod_eq_of_lt (Nat.lt_trans (Nat.mod_lt _ (by decide)) (by decide))

/-- The symbols of a stream, as integers, are its elements. -/
theorem map_toNat_byteToSym {inp : List Byte} (h : allSymbols inp) :
    (inp.map byteToSym).map BitVec.toNat = inp.map BitVec.toNat := by
  rw [List.map_map]
  exact List.map_congr_left fun v hv => byteToSym_toNat (h v hv)

/-- `PMODS` and `PMODL` on symbols emit the groups of the integer residue (R101, R102). -/
theorem pmodRun_ok (c : Constants) (code : Code) {inp : List Byte} (h : allSymbols inp) (r : Run) :
    (pmodRun c code inp r).map Run.out =
      .ok (r.out ++ groupsNat code (polymodNat c code (inp.map BitVec.toNat))) := by
  rw [← map_toNat_byteToSym h, ← residue_toNat, groupsNat_toNat]
  rcases pmodRun_cases c code inp r with ⟨-, hrun⟩ | ⟨⟨v, hv, hge⟩, -⟩
  · exact hrun
  · exact absurd (h v hv) (Nat.not_lt.mpr hge)

/-- `CKSUM` on symbols emits the groups of the integer residue with zeros appended, exclusive-or the
target (R104). -/
theorem cksumRun_ok (c : Constants) {inp : List Byte} (h : allSymbols inp) (r : Run) :
    (cksumRun c inp r).map Run.out =
      .ok (r.out ++ outputOf c .cksum inp) := by
  have hzeros : ∀ n, List.replicate n 0 = (List.replicate n (0 : Sym)).map BitVec.toNat := by simp
  rw [outputOf, ← map_toNat_byteToSym h, hzeros, ← List.map_append, ← residue_toNat, targetNat_eq,
    ← BitVec.toNat_xor, groupsNat_toNat]
  rcases cksumRun_cases c inp r with ⟨-, hrun⟩ | ⟨⟨v, hv, hge⟩, -⟩
  · exact hrun
  · exact absurd (h v hv) (Nat.not_lt.mpr hge)

/-- `VERIFY` on symbols emits whether the integer residue under the code of its length is that code's
target (R105). -/
theorem verifyRun_ok (c : Constants) {inp : List Byte} (h : allSymbols inp) (r : Run) :
    (verifyRun c inp r).map Run.out = .ok (r.out ++ outputOf c .verify inp) := by
  rcases verifyRun_cases c inp r with ⟨-, hcode, hrun⟩ | ⟨code, -, hcode, hrun⟩ | ⟨⟨v, hv, hge⟩, -⟩
  · simp only [hrun, outputOf, hcode]
  · have htarget : polymodNat c code (inp.map BitVec.toNat) = targetNat c code ↔
        residue c code (inp.map byteToSym) = target c code := by
      rw [← map_toNat_byteToSym h, ← residue_toNat, targetNat_eq, BitVec.toNat_inj]
    simp only [hrun, outputOf, hcode, htarget, apply_ite (fun b : Byte => [b])]
  · exact absurd (h v hv) (Nat.not_lt.mpr hge)

end Sys2Proof.Machine

/-! The laws of R87 for the machine's constants, and the product of R86 as a product of polynomials. -/

namespace Sys2Proof.Machine

theorem gfmul_zero_right (c : Constants) (a : Sym) : gfmul c a 0 = 0 := by
  have h := gfmul_xor_right c a 0 0
  rwa [BitVec.xor_self, BitVec.xor_self] at h

theorem gfmul_zero_left (c : Constants) (a : Sym) : gfmul c 0 a = 0 := by
  have h := gfmul_xor_left c 0 0 a
  rwa [BitVec.xor_self, BitVec.xor_self] at h

/-- Multiplication is associative where it is with powers of x as the outer factors. -/
theorem gfmul_assoc_of_basis {c : Constants}
    (h : ∀ a ∈ symBasis, ∀ d ∈ symBasis, ∀ b, gfmul c (gfmul c a b) d = gfmul c a (gfmul c b d))
    (a b d : Sym) : gfmul c (gfmul c a b) d = gfmul c a (gfmul c b d) := by
  induction a using sym_linear_induction with
  | zero => simp only [gfmul_zero_left]
  | xor a a' ha ha' => simp only [gfmul_xor_left, ha, ha']
  | basis a ha =>
    induction d using sym_linear_induction with
    | zero => simp only [gfmul_zero_right]
    | xor d d' hd hd' => simp only [gfmul_xor_right, hd, hd']
    | basis d hd => exact h a ha d hd b

theorem gfmul_assoc_basis_constants : ∀ a ∈ symBasis, ∀ d ∈ symBasis, ∀ b,
    gfmul Config.constants (gfmul Config.constants a b) d =
      gfmul Config.constants a (gfmul Config.constants b d) := by decide +kernel

/-- The machine's constants satisfy the laws of R87. -/
theorem fieldLaws_constants : FieldLaws Config.constants where
  comm := by decide +kernel
  assoc := gfmul_assoc_of_basis gfmul_assoc_basis_constants
  distrib := gfmul_xor_right Config.constants
  one_mul := by decide +kernel
  eq_zero := by decide +kernel
  inverse_unique := by decide +kernel

/-- The register loop computes the product of polynomials, reduced (R85, R86). -/
theorem gfmul_toNat : ∀ a b : Sym, (gfmul Config.constants a b).toNat =
    productOnNat Config.constants.reduce.toNat a.toNat b.toNat := by decide +kernel

theorem symToByte_eq_ofNat (v : Sym) : symToByte v = BitVec.ofNat 8 v.toNat := by
  have := v.isLt
  apply BitVec.eq_of_toNat_eq
  rw [symToByte_toNat, BitVec.toNat_ofNat]
  omega

end Sys2Proof.Machine

/-! The arrangement of R121 gives the closed form, and the lanes of R123 the interpolated vector. -/

namespace Sys2Proof.Machine

section Products

variable {c : Constants} (hc : FieldLaws c)
include hc

theorem FieldLaws.right_comm (a b d : Sym) :
    gfmul c (gfmul c a b) d = gfmul c (gfmul c a d) b := by
  rw [hc.assoc, hc.comm b d, ← hc.assoc]

theorem FieldLaws.foldl_gfmul (xs : List Sym) (p : Sym) :
    xs.foldl (gfmul c) p = gfmul c p (productOf c xs) := by
  induction xs generalizing p with
  | nil => rw [productOf, List.foldl_nil, List.foldl_nil, hc.comm, hc.one_mul]
  | cons y rest ih =>
    rw [productOf, List.foldl_cons, List.foldl_cons, ih, ih (gfmul c 1 y), hc.one_mul, hc.assoc]

theorem FieldLaws.productOf_cons (y : Sym) (xs : List Sym) :
    productOf c (y :: xs) = gfmul c y (productOf c xs) := by
  rw [productOf, List.foldl_cons, hc.foldl_gfmul, hc.one_mul]

theorem FieldLaws.productOf_perm {xs ys : List Sym} (h : xs.Perm ys) :
    productOf c xs = productOf c ys :=
  h.foldl_eq' (fun a _ b _ p => hc.right_comm p a b) 1

theorem FieldLaws.mul_ne_zero {a b : Sym} (ha : a ≠ 0) (hb : b ≠ 0) : gfmul c a b ≠ 0 :=
  fun h => (hc.eq_zero a b h).elim ha hb

theorem FieldLaws.productOf_ne_zero {xs : List Sym} (h : ∀ y ∈ xs, y ≠ 0) : productOf c xs ≠ 0 := by
  induction xs with
  | nil => exact (by decide : (1 : Sym) ≠ 0)
  | cons y rest ih =>
    rw [hc.productOf_cons]
    exact hc.mul_ne_zero (h y (by simp)) (ih fun z hz => h z (by simp [hz]))

/-- A common factor of numerator and denominator cancels. -/
theorem FieldLaws.cancel_factor {d den : Sym} (num : Sym) (hd : d ≠ 0) (hden : den ≠ 0) :
    gfmul c (gfmul c d num) (invTable c (gfmul c d den)) = gfmul c num (invTable c den) := by
  have hinv : gfmul c (gfmul c d den) (invTable c (gfmul c d den)) = 1 :=
    (hc.inverse_unique _ _ (hc.mul_ne_zero hd hden)).mpr rfl
  have hfactor : gfmul c d (invTable c (gfmul c d den)) = invTable c den := by
    rw [← hc.inverse_unique den _ hden, ← hc.assoc, hc.comm den d, hinv]
  rw [hc.comm d num, hc.assoc, hfactor]

end Products

/-! The registers' products as products over lists (R121). -/

theorem map_range_getD {α : Type} (g : Sym → α) (xs : List Sym) :
    (List.range xs.length).map (fun i => g (xs.getD i 0)) = xs.map g := by
  apply List.ext_getElem
  · simp
  · intro i h _
    have hi : i < xs.length := by simpa using h
    simp [hi]

/-- `LN` is the product of all the differences to the target. -/
theorem lnValue_eq_productOf (c : Constants) (x : Sym) (xs : List Sym) :
    lnValue c x xs (List.range xs.length) 1 = productOf c (xs.map (x ^^^ ·)) := by
  rw [← map_range_getD, productOf, List.foldl_map, lnValue]
  simp only [BitVec.xor_comm x]

/-- `LM` is the product of the differences to point `i`, its own factor being the difference to the
target. -/
theorem lmValue_eq_productOf (c : Constants) (x : Sym) (xs : List Sym) (i : Nat) :
    lmValue c x xs i (List.range xs.length) 1 =
      productOf c ((xs.map (xs.getD i 0 ^^^ ·)).set i (x ^^^ xs.getD i 0)) := by
  have hfactors : (xs.map (xs.getD i 0 ^^^ ·)).set i (x ^^^ xs.getD i 0) =
      (List.range xs.length).map (lmFactor x xs i) := by
    apply List.ext_getElem
    · simp
    · intro j h _
      have hj : j < xs.length := by simpa using h
      by_cases hij : j = i
      · subst hij
        simp [lmFactor, hj]
      · simp [lmFactor, hj, hij, Ne.symm hij]
  rw [hfactors, productOf, List.foldl_map, lmValue]

/-- In points that differ from each other and from the target, the arrangement's weight is the closed
form's: numerator and denominator carry one more factor, the difference of the point to the target
(R121). -/
theorem arrangedWeight_eq_lagrangeWeight {c : Constants} (hc : FieldLaws c) {x : Sym} {xs : List Sym}
    (hnd : xs.Nodup) (hx : x ∉ xs) {i : Nat} (hi : i < xs.length) :
    arrangedWeight c x xs i = lagrangeWeight c x xs i := by
  have hperm : (xs[i] :: xs.eraseIdx i).Perm xs := List.getElem_cons_eraseIdx_perm hi
  have hpoint : xs.getD i 0 = xs[i] := by simp [hi]
  have hln : lnValue c x xs (List.range xs.length) 1 =
      gfmul c (x ^^^ xs[i]) (numerator c x xs i) := by
    rw [lnValue_eq_productOf, ← hc.productOf_perm (hperm.map (x ^^^ ·)), List.map_cons,
      hc.productOf_cons, numerator]
  have hlm : lmValue c x xs i (List.range xs.length) 1 =
      gfmul c (x ^^^ xs[i]) (denominator c xs i) := by
    rw [lmValue_eq_productOf,
      hc.productOf_perm (List.set_perm_cons_eraseIdx (by simpa using hi) _), hc.productOf_cons,
      List.eraseIdx_map, denominator, hpoint]
  have hfactor : x ^^^ xs[i] ≠ 0 := fun h =>
    hx (BitVec.xor_eq_zero_iff.mp h ▸ List.getElem_mem hi)
  have hden : denominator c xs i ≠ 0 := by
    refine hc.productOf_ne_zero fun y hy h => ?_
    obtain ⟨z, hz, rfl⟩ := List.mem_map.mp hy
    rw [hpoint] at h
    have hnot : xs[i] ∉ xs.eraseIdx i := (List.nodup_cons.mp (hperm.nodup_iff.mpr hnd)).1
    exact hnot (BitVec.xor_eq_zero_iff.mp h ▸ hz)
  rw [arrangedWeight, hln, hlm, hc.cancel_factor _ hfactor hden, lagrangeWeight]

theorem arrangedWeights_eq_lagrangeWeights {c : Constants} (hc : FieldLaws c) {x : Sym}
    {xs : List Sym} (hnd : xs.Nodup) (hx : x ∉ xs) :
    (List.range xs.length).map (arrangedWeight c x xs) = lagrangeWeights c x xs :=
  List.map_congr_left fun _ hi => arrangedWeight_eq_lagrangeWeight hc hnd hx (List.mem_range.mp hi)

/-- A lane adds up the weighted symbols of its position (R123). -/
theorem laneValue_eq_xorAll (c : Constants) {wt : List Sym} {vs : List (List Sym)} (i : Nat)
    (h : wt.length = vs.length) :
    laneValue c wt vs i (List.range vs.length) 0 =
      xorAll (List.zipWith (fun w v => gfmul c w (v.getD i 0)) wt vs) := by
  have hterms : List.zipWith (fun w v => gfmul c w (v.getD i 0)) wt vs =
      (List.range vs.length).map fun j => gfmul c (wt.getD j 0) ((vs.getD j []).getD i 0) := by
    apply List.ext_getElem
    · simp [h]
    · intro j hj _
      have hjv : j < vs.length := by simpa [h] using hj
      simp [hjv, h]
  rw [hterms, xorAll, List.foldl_map, laneValue]

/-! What the two commands emit (R122, R123). -/

theorem lagwRun_outputOf {c : Constants} (hc : FieldLaws c) {x : Sym} {inp : List Byte} (r : Run)
    (hne : inp ≠ []) (hr : allSymbols inp) (hnd : (inp.map byteToSym).Nodup)
    (hx : x ∉ inp.map byteToSym) :
    (lagwRun c x inp r).map Run.out = .ok (r.out ++ outputOf c (.lagw x) inp) := by
  rw [lagwRun_ok c r hne hr hnd hx, arrangedWeights_eq_lagrangeWeights hc hnd hx, outputOf]

theorem interpRun_outputOf {c : Constants} (hc : FieldLaws c) {k x : Sym} {inp : List Byte} (r : Run)
    (hf : interpFrame k inp = true) (hr : allSymbols inp)
    (hnd : ((interpVectors k inp).map xCoordinate).Nodup)
    (hx : x ∉ (interpVectors k inp).map xCoordinate) :
    (interpRun c k x inp r).map Run.out = .ok (r.out ++ outputOf c (.interp k x) inp) := by
  have hlane : ∀ i, laneValue c
      ((List.range ((interpVectors k inp).map xCoordinate).length).map
        (arrangedWeight c x ((interpVectors k inp).map xCoordinate)))
      (interpVectors k inp) i (List.range (interpVectors k inp).length) 0 =
        interpolatedAt c x (interpVectors k inp) i := by
    intro i
    rw [arrangedWeights_eq_lagrangeWeights hc hnd hx, interpolatedAt]
    exact laneValue_eq_xorAll c i (by simp [lagrangeWeights])
  rw [interpRun_ok c r hf hr hnd hx]
  exact congrArg (fun out => Except.ok (r.out ++ out))
    (List.map_congr_left fun i _ => congrArg symToByte (hlane i))

end Sys2Proof.Machine

/-! Every step of an issued transaction ends it with the answer of the reading (R4, R170 to R172), and
the statements of `00_scope.md` that follow. -/

namespace Sys2Proof.Machine

/-! The fault reported, command by command (R170, R172). -/

theorem find?_cons_eq_ite (p : BlockFault → Bool) (f : BlockFault) (rest : List BlockFault) :
    (f :: rest).find? p = if p f then some f else rest.find? p := by
  rw [List.find?_cons]
  cases p f <;> rfl

theorem reportedFault_eq (i : Instr) (inp : List Byte) :
    reportedFault i inp =
      if badFrameApplies i inp then some .badFrame
      else if takesSymbols i = true ∧ ¬ allSymbols inp then some .valueRange
      else if i = .cvt58 ∧ 5 ≤ 5 * inp.length % 8 then some .incompleteGroup
      else if i = .gfinv 0 then some .inverseOfZero
      else if ¬ (pointsOf i inp).Nodup then some .duplicateShareIndex
      else if targetPresent i inp then some .targetIndexPresent
      else none := by
  have hrange : (takesSymbols i && inp.any fun v => 32 ≤ v.toNat) = true ↔
      takesSymbols i = true ∧ ¬ allSymbols inp := by simp [allSymbols]
  simp only [reportedFault, find?_cons_eq_ite, faultApplies, hrange, decide_eq_true_eq, List.find?_nil]

theorem reportedFault_cvt58 (inp : List Byte) :
    reportedFault .cvt58 inp =
      if ¬ allSymbols inp then some .valueRange
      else if 5 ≤ 5 * inp.length % 8 then some .incompleteGroup else none := by
  simp [reportedFault_eq, badFrameApplies, takesSymbols, pointsOf, targetPresent]

/-- The commands that take any symbol stream, and know no fault but `ValueRange`. -/
def rangeFaultOnly (i : Instr) : Prop :=
  i = .cvt58p ∨ i = .pmods ∨ i = .pmodl ∨ i = .cksum ∨ i = .verify

theorem reportedFault_rangeFaultOnly {i : Instr} (hi : rangeFaultOnly i) (inp : List Byte) :
    reportedFault i inp = if ¬ allSymbols inp then some .valueRange else none := by
  rcases hi with rfl | rfl | rfl | rfl | rfl <;>
    simp [reportedFault_eq, badFrameApplies, takesSymbols, pointsOf, targetPresent]

theorem reportedFault_cvt85 (inp : List Byte) : reportedFault .cvt85 inp = none := by
  simp [reportedFault_eq, badFrameApplies, takesSymbols, pointsOf, targetPresent]

theorem reportedFault_cvt85p (inp : List Byte) : reportedFault .cvt85p inp = none := by
  simp [reportedFault_eq, badFrameApplies, takesSymbols, pointsOf, targetPresent]

theorem reportedFault_gfmul (a b : Sym) (inp : List Byte) :
    reportedFault (.gfmul a b) inp = if inp ≠ [] then some .badFrame else none := by
  simp [reportedFault_eq, badFrameApplies, takesSymbols, pointsOf, targetPresent]

theorem reportedFault_gfinv (a : Sym) (inp : List Byte) :
    reportedFault (.gfinv a) inp =
      if inp ≠ [] then some .badFrame else if a = 0 then some .inverseOfZero else none := by
  simp [reportedFault_eq, badFrameApplies, takesSymbols, pointsOf, targetPresent]

/-- The first fault of the checks of R125: the frame, the range, repeated points, the target among the
points. -/
def interpolationFault (badFrame : Prop) [Decidable badFrame] (inp : List Byte) (x : Sym)
    (xs : List Sym) : Option BlockFault :=
  if badFrame then some .badFrame
  else if ¬ allSymbols inp then some .valueRange
  else if ¬ xs.Nodup then some .duplicateShareIndex
  else if x ∈ xs then some .targetIndexPresent
  else none

theorem targetPresent_lagw (x : Sym) (inp : List Byte) :
    targetPresent (.lagw x) inp = true ↔ x ∈ inp.map byteToSym := decide_eq_true_iff

theorem targetPresent_interp (k x : Sym) (inp : List Byte) :
    targetPresent (.interp k x) inp = true ↔ x ∈ (interpVectors k inp).map xCoordinate :=
  decide_eq_true_iff

theorem badFrameApplies_interp (k x : Sym) (inp : List Byte) :
    badFrameApplies (.interp k x) inp = true ↔ interpFrame k inp = false := by
  have hk : k = 0 ↔ k.toNat = 0 := BitVec.toNat_inj.symm
  have hinp : inp = [] ↔ inp.length = 0 := List.length_eq_zero_iff.symm
  rw [← Bool.not_eq_true, interpFrame_iff, badFrameApplies, decide_eq_true_eq, hk, hinp]
  omega

theorem reportedFault_lagw (x : Sym) (inp : List Byte) :
    reportedFault (.lagw x) inp = interpolationFault (inp = []) inp x (inp.map byteToSym) := by
  simp only [reportedFault_eq, interpolationFault, badFrameApplies, takesSymbols, pointsOf,
    targetPresent_lagw, decide_eq_true_eq, true_and, reduceCtorEq, false_and, if_false]

theorem reportedFault_interp (k x : Sym) (inp : List Byte) :
    reportedFault (.interp k x) inp =
      interpolationFault (interpFrame k inp = false) inp x
        ((interpVectors k inp).map xCoordinate) := by
  simp only [reportedFault_eq, interpolationFault, badFrameApplies_interp, takesSymbols, pointsOf,
    targetPresent_interp, true_and, reduceCtorEq, false_and, if_false]

/-! What a run answers, command by command. -/

/-- What the host reads after a command's run (R32, R171). -/
def runAnswer (o : Except BlockFault Run) : Status × List Byte :=
  match o with
  | .ok r => (.ok, r.out)
  | .error f => (.fault f, [])

theorem conclude_eq (o : Except BlockFault Run) (s : State) :
    conclude o s = .next (endTransaction (runAnswer o).1 (runAnswer o).2 s) := by
  cases o <;> rfl

theorem runAnswer_of_out {o : Except BlockFault Run} {out : List Byte}
    (h : o.map Run.out = .ok out) : runAnswer o = (.ok, out) := by
  cases o with
  | ok r => exact congrArg (Prod.mk Status.ok) (Except.ok.inj h)
  | error f => exact nomatch h

/-- A run that emits the output of the reading, where no fault is reported, answers as the reading. -/
theorem runAnswer_eq_of_out {c : Constants} {i : Instr} {inp : List Byte} {o : Except BlockFault Run}
    (hnone : reportedFault i inp = none) (h : o.map Run.out = .ok ([] ++ outputOf c i inp)) :
    runAnswer o = answerOf c i inp := by
  rw [runAnswer_of_out h, List.nil_append, answerOf, hnone]

/-- A run that ends with the reported fault answers as the reading. -/
theorem runAnswer_eq_of_fault (c : Constants) {i : Instr} {inp : List Byte} {f : BlockFault}
    {o : Except BlockFault Run} (hf : reportedFault i inp = some f) (h : o = .error f) :
    runAnswer o = answerOf c i inp := by
  rw [h, answerOf, hf, runAnswer]

theorem not_allSymbols_iff {inp : List Byte} : ¬ allSymbols inp ↔ ∃ v ∈ inp, 32 ≤ v.toNat := by
  simp [allSymbols]

theorem lt_two_pow_eight (inp : List Byte) : ∀ v ∈ inp, v.toNat < 2 ^ 8 := fun v _ => v.isLt

theorem cvt58_answer (s : State) :
    runAnswer (convertRun 5 8 false s.inp s.start) = answerOf Config.constants .cvt58 s.inp := by
  have hreport := reportedFault_cvt58 s.inp
  by_cases h : allSymbols s.inp
  · rw [if_neg (not_not.mpr h)] at hreport
    by_cases hend : 5 ≤ 5 * s.inp.length % 8
    · rw [if_pos hend] at hreport
      exact runAnswer_eq_of_fault _ hreport
        (convertRun_incompleteGroup (by decide) (by decide) h hend _)
    · rw [if_neg hend] at hreport
      exact runAnswer_eq_of_out hreport (convertRun_ok (by decide) (by decide) (by decide) h false
        (.inr (Nat.lt_of_not_le hend)) _)
  · rw [if_pos h] at hreport
    exact runAnswer_eq_of_fault _ hreport
      (convertRun_valueRange false (not_allSymbols_iff.mp h) _)

/-- The answer of a command that knows no fault but `ValueRange`. -/
theorem answer_of_rangeFaultOnly {c : Constants} {i : Instr} (hi : rangeFaultOnly i) {inp : List Byte}
    {o : Except BlockFault Run} (hok : allSymbols inp → o.map Run.out = .ok ([] ++ outputOf c i inp))
    (herr : ¬ allSymbols inp → o = .error .valueRange) : runAnswer o = answerOf c i inp := by
  have hreport := reportedFault_rangeFaultOnly hi inp
  by_cases h : allSymbols inp
  · exact runAnswer_eq_of_out (hreport.trans (if_neg (not_not.mpr h))) (hok h)
  · exact runAnswer_eq_of_fault c (hreport.trans (if_pos h)) (herr h)

theorem cvt58p_answer (s : State) :
    runAnswer (convertRun 5 8 true s.inp s.start) = answerOf Config.constants .cvt58p s.inp :=
  answer_of_rangeFaultOnly (by simp [rangeFaultOnly])
    (fun h => convertRun_ok (by decide) (by decide) (by decide) h true (.inl rfl) _)
    (fun h => convertRun_valueRange true (not_allSymbols_iff.mp h) _)

theorem cvt85_answer (s : State) :
    runAnswer (convertRun 8 5 false s.inp s.start) = answerOf Config.constants .cvt85 s.inp :=
  runAnswer_eq_of_out (reportedFault_cvt85 s.inp)
    (convertRun_ok (by decide) (by decide) (by decide) (lt_two_pow_eight s.inp) false
      (.inr (by omega)) _)

theorem cvt85p_answer (s : State) :
    runAnswer (convertRun 8 5 true s.inp s.start) = answerOf Config.constants .cvt85p s.inp :=
  runAnswer_eq_of_out (reportedFault_cvt85p s.inp)
    (convertRun_ok (by decide) (by decide) (by decide) (lt_two_pow_eight s.inp) true (.inl rfl) _)

theorem gfmul_answer (a b : Sym) (s : State) :
    runAnswer (gfmulRun Config.constants a b s.inp s.start) =
      answerOf Config.constants (.gfmul a b) s.inp := by
  have hreport := reportedFault_gfmul a b s.inp
  rcases gfmulRun_cases Config.constants a b s.inp s.start with ⟨hinp, hout⟩ | ⟨hinp, hrun⟩
  · rw [symToByte_eq_ofNat, gfmul_toNat] at hout
    exact runAnswer_eq_of_out (hreport.trans (if_neg (not_not.mpr hinp))) hout
  · exact runAnswer_eq_of_fault _ (hreport.trans (if_pos hinp)) hrun

theorem gfinv_answer (a : Sym) (s : State) :
    runAnswer (gfinvRun Config.constants a s.inp s.start) =
      answerOf Config.constants (.gfinv a) s.inp := by
  have hreport := reportedFault_gfinv a s.inp
  rcases gfinvRun_cases Config.constants a s.inp s.start with
    ⟨hinp, ha, hout⟩ | ⟨hinp, ha, hrun⟩ | ⟨hinp, hrun⟩
  · rw [if_neg (not_not.mpr hinp), if_neg ha] at hreport
    exact runAnswer_eq_of_out hreport hout
  · rw [if_neg (not_not.mpr hinp), if_pos ha] at hreport
    exact runAnswer_eq_of_fault _ hreport hrun
  · exact runAnswer_eq_of_fault _ (hreport.trans (if_pos hinp)) hrun

theorem pmods_answer (s : State) :
    runAnswer (pmodRun Config.constants .short s.inp s.start) =
      answerOf Config.constants .pmods s.inp :=
  answer_of_rangeFaultOnly (by simp [rangeFaultOnly]) (fun h => pmodRun_ok _ .short h _)
    fun h => by simp only [pmodRun, readSymbols_error (not_allSymbols_iff.mp h)]

theorem pmodl_answer (s : State) :
    runAnswer (pmodRun Config.constants .long s.inp s.start) =
      answerOf Config.constants .pmodl s.inp :=
  answer_of_rangeFaultOnly (by simp [rangeFaultOnly]) (fun h => pmodRun_ok _ .long h _)
    fun h => by simp only [pmodRun, readSymbols_error (not_allSymbols_iff.mp h)]

theorem cksum_answer (s : State) :
    runAnswer (cksumRun Config.constants s.inp s.start) = answerOf Config.constants .cksum s.inp :=
  answer_of_rangeFaultOnly (by simp [rangeFaultOnly]) (fun h => cksumRun_ok _ h _)
    fun h => by simp only [cksumRun, readSymbols_error (not_allSymbols_iff.mp h)]

theorem verify_answer (s : State) :
    runAnswer (verifyRun Config.constants s.inp s.start) = answerOf Config.constants .verify s.inp :=
  answer_of_rangeFaultOnly (by simp [rangeFaultOnly]) (fun h => verifyRun_ok _ h _)
    fun h => by simp only [verifyRun, readSymbols_error (not_allSymbols_iff.mp h)]

/-- The answer of a command that makes the checks of R125 and, where they pass, emits the reading's
output. The hypothesis `hrun` has the form of `lagwRun_cases` and `interpRun_cases`. -/
theorem answer_of_interpolationFault {c : Constants} {i : Instr} {inp : List Byte} {x : Sym}
    {xs : List Sym} {o : Except BlockFault Run} {badFrame framed : Prop} [Decidable badFrame]
    (hframe : framed → ¬ badFrame)
    (hreport : reportedFault i inp = interpolationFault badFrame inp x xs)
    (hrun : (badFrame ∧ o = .error .badFrame) ∨
      (framed ∧ (∃ v ∈ inp, 32 ≤ v.toNat) ∧ o = .error .valueRange) ∨
      (framed ∧ allSymbols inp ∧
        ((¬ xs.Nodup ∧ o = .error .duplicateShareIndex) ∨
          (xs.Nodup ∧ x ∈ xs ∧ o = .error .targetIndexPresent) ∨ (xs.Nodup ∧ x ∉ xs))))
    (hok : framed → allSymbols inp → xs.Nodup → x ∉ xs →
      o.map Run.out = .ok ([] ++ outputOf c i inp)) :
    runAnswer o = answerOf c i inp := by
  rw [interpolationFault] at hreport
  rcases hrun with ⟨hbad, ho⟩ | ⟨hf, hr, ho⟩ | ⟨hf, hr, ⟨hnd, ho⟩ | ⟨hnd, hx, ho⟩ | ⟨hnd, hx⟩⟩
  · rw [if_pos hbad] at hreport
    exact runAnswer_eq_of_fault c hreport ho
  · rw [if_neg (hframe hf), if_pos (not_allSymbols_iff.mpr hr)] at hreport
    exact runAnswer_eq_of_fault c hreport ho
  · rw [if_neg (hframe hf), if_neg (not_not.mpr hr), if_pos hnd] at hreport
    exact runAnswer_eq_of_fault c hreport ho
  · rw [if_neg (hframe hf), if_neg (not_not.mpr hr), if_neg (not_not.mpr hnd), if_pos hx] at hreport
    exact runAnswer_eq_of_fault c hreport ho
  · rw [if_neg (hframe hf), if_neg (not_not.mpr hr), if_neg (not_not.mpr hnd), if_neg hx] at hreport
    exact runAnswer_eq_of_out hreport (hok hf hr hnd hx)

theorem lagw_answer (x : Sym) (s : State) :
    runAnswer (lagwRun Config.constants x s.inp s.start) =
      answerOf Config.constants (.lagw x) s.inp :=
  answer_of_interpolationFault id (reportedFault_lagw x s.inp) (lagwRun_cases _ x s.inp s.start)
    fun hne hr hnd hx => lagwRun_outputOf fieldLaws_constants s.start hne hr hnd hx

theorem interp_answer (k x : Sym) (s : State) :
    runAnswer (interpRun Config.constants k x s.inp s.start) =
      answerOf Config.constants (.interp k x) s.inp :=
  answer_of_interpolationFault ne_false_of_eq_true (reportedFault_interp k x s.inp)
    (interpRun_cases _ k x s.inp s.start)
    fun hf hr hnd hx => interpRun_outputOf fieldLaws_constants s.start hf hr hnd hx

/-! The step. -/

theorem conclude_of_answer {o : Except BlockFault Run} {a : Status × List Byte} (s : State)
    (h : runAnswer o = a) : conclude o s = .next (endTransaction a.1 a.2 s) := by
  rw [conclude_eq, h]

/-- Every command ends its transaction with the answer of the reading. -/
theorem exec_eq_endTransaction (i : Instr) (s : State) :
    exec i s = .next (endTransaction (answerOf Config.constants i s.inp).1
      (answerOf Config.constants i s.inp).2 s) := by
  cases i with
  | cvt58 => exact conclude_of_answer s (cvt58_answer s)
  | cvt58p => exact conclude_of_answer s (cvt58p_answer s)
  | cvt85 => exact conclude_of_answer s (cvt85_answer s)
  | cvt85p => exact conclude_of_answer s (cvt85p_answer s)
  | gfmul a b => exact conclude_of_answer s (gfmul_answer a b s)
  | gfinv a => exact conclude_of_answer s (gfinv_answer a s)
  | pmods => exact conclude_of_answer s (pmods_answer s)
  | pmodl => exact conclude_of_answer s (pmodl_answer s)
  | cksum => exact conclude_of_answer s (cksum_answer s)
  | verify => exact conclude_of_answer s (verify_answer s)
  | lagw x => exact conclude_of_answer s (lagw_answer x s)
  | interp k x => exact conclude_of_answer s (interp_answer k x s)

/-- The state an issued transaction ends in, on the reading. -/
def endedState (s : State) : State :=
  endTransaction (transactionAnswer Config.constants s.cw s.inp).1
    (transactionAnswer Config.constants s.cw s.inp).2 s

@[simp] theorem endedState_result (s : State) :
    (endedState s).result = some (transactionAnswer Config.constants s.cw s.inp) := rfl

theorem endedState_answered (s : State) : (endedState s).answered := fun _ => rfl

theorem step_of_issued {s : State} (h : s.phase = .issued) : step s = .next (endedState s) := by
  rw [step, h, fetchWord_eq, endedState, transactionAnswer]
  cases decode s.cw with
  | ok i => exact exec_eq_endTransaction i s
  | error e => rfl

theorem step_of_not_issued {s : State} (h : s.phase ≠ .issued) : step s = .next s := by
  rw [step]
  cases hp : s.phase with
  | idle => rfl
  | issued => exact absurd hp h
  | complete => rfl

/-- All that a step can do. -/
theorem step_cases (s : State) :
    (s.phase = .issued ∧ step s = .next (endedState s)) ∨
      (s.phase ≠ .issued ∧ step s = .next s) := by
  by_cases h : s.phase = .issued
  · exact .inl ⟨h, step_of_issued h⟩
  · exact .inr ⟨h, step_of_not_issued h⟩

/-- Settles O10: an issued transaction ends, and a block with none issued rests. -/
theorem everyStepAnswersNext : Obligations.EveryStepAnswersNext := by
  intro s
  rcases step_cases s with ⟨-, hstep⟩ | ⟨-, hstep⟩
  · exact ⟨endedState s, hstep⟩
  · exact ⟨s, hstep⟩

/-- Settles O14: the one answer is the reading's, which has no register among its arguments. -/
theorem resultDependsOnCwAndInOnly : Obligations.ResultDependsOnCwAndInOnly := by
  intro cw inp
  refine ⟨transactionAnswer Config.constants cw inp, ?_⟩
  rintro s hissued rfl rfl
  exact ⟨endedState s, step_of_issued hissued, endedState_result s⟩

/-- Settles O19: a step ends a transaction with its own answer, or changes nothing. -/
theorem stepKeepsAnswered : Obligations.StepKeepsAnswered := by
  intro s t hs hst
  rcases step_cases s with ⟨-, hstep⟩ | ⟨-, hstep⟩
  · obtain rfl : endedState s = t := Host.Outcome.next.inj (hstep.symm.trans hst)
    exact endedState_answered s
  · obtain rfl : s = t := Host.Outcome.next.inj (hstep.symm.trans hst)
    exact hs

/-! Scripts under a bound on the length of `IN` (R3). -/

theorem lengthAllowed_iff (maxLen : Option Nat) (len : Nat) :
    lengthAllowed maxLen len = true ↔ ∀ m, maxLen = some m → len ≤ m := by
  cases maxLen with
  | none => simp
  | some m => simp

/-- A transaction whose stream is within the bound ends with its answer. -/
theorem transactWithin_of_allowed {maxLen : Option Nat} {inp : List Byte}
    (h : lengthAllowed maxLen inp.length = true) (cw : CmdWord) (s : State) :
    ∃ t, transactWithin maxLen cw inp s = some t ∧
      t.result = some (transactionAnswer Config.constants cw inp) := by
  have hissue := (issueWithin_eq_some (cw := cw) (s := s)).mpr ⟨h, rfl⟩
  refine ⟨_, by rw [transactWithin, hissue]; rfl, ?_⟩
  rw [stepState, step_of_issued rfl]
  rfl

theorem transactWithin_of_not_allowed {maxLen : Option Nat} {inp : List Byte}
    (h : ¬ lengthAllowed maxLen inp.length = true) (cw : CmdWord) (s : State) :
    transactWithin maxLen cw inp s = none := by
  rw [transactWithin, State.issueWithin, if_neg h]
  rfl

theorem runScriptWithin_eq_map (maxLen : Option Nat) (script : List (CmdWord × List Byte))
    (s : State) :
    runScriptWithin maxLen script s = script.map fun t =>
      if lengthAllowed maxLen t.2.length then some (transactionAnswer Config.constants t.1 t.2)
      else none := by
  induction script generalizing s with
  | nil => rfl
  | cons entry rest ih =>
    obtain ⟨cw, inp⟩ := entry
    rw [runScriptWithin, List.map_cons]
    by_cases h : lengthAllowed maxLen inp.length = true
    · obtain ⟨t, ht, hresult⟩ := transactWithin_of_allowed h cw s
      rw [ht, if_pos h, ← hresult, ← ih t]
    · rw [transactWithin_of_not_allowed h, if_neg h, ← ih s]

/-- Settles O58, by induction on the script. -/
theorem boundedScriptAnswersAllowed : Obligations.BoundedScriptAnswersAllowed := by
  intro maxLen
  refine ⟨fun cw inp s => ?_, runScriptWithin_eq_map maxLen⟩
  rw [← lengthAllowed_iff]
  constructor
  · rintro ⟨t, ht, -⟩
    exact (issueWithin_eq_some.mp ht).1
  · intro h
    exact ⟨_, issueWithin_eq_some.mpr ⟨h, rfl⟩, rfl, rfl, rfl⟩

end Sys2Proof.Machine

/-! The checksum register as a shift register over GF(32), and its width (R17, R34, R100). -/

namespace Sys2Proof.Machine

/-! The groups of a register value (R34). -/

theorem residueGroup_toNat (code : Code) (res : BitVec 75) (g : Nat) :
    (residueGroup code res g).toNat = res.toNat / 2 ^ (regWidth code - 5 - 5 * g) % 2 ^ 5 := by
  rw [residueGroup, BitVec.toNat_setWidth, BitVec.toNat_ushiftRight, Nat.shiftRight_eq_div_pow]

theorem ckSymbols_eq_succ (code : Code) : ckSymbols code = ckSymbols code - 1 + 1 := by
  cases code <;> rfl

/-- What a step shifts out is the most significant group. -/
theorem residueGroup_zero (code : Code) (res : BitVec 75) :
    residueGroup code res 0 = topOf code res := rfl

theorem residueGroups_eq_cons (code : Code) (res : BitVec 75) :
    residueGroups code res =
      topOf code res ::
        (List.range (ckSymbols code - 1)).map fun g => residueGroup code res (g + 1) := by
  rw [residueGroups, ckSymbols_eq_succ, List.range_succ_eq_map, List.map_cons, List.map_map,
    residueGroup_zero]
  rfl

theorem residueGroup_xor (code : Code) (a b : BitVec 75) (g : Nat) :
    residueGroup code (a ^^^ b) g = residueGroup code a g ^^^ residueGroup code b g := by
  rw [residueGroup, BitVec.ushiftRight_xor_distrib, BitVec.setWidth_xor, residueGroup, residueGroup]

/-- After the shift, the last group is the symbol that entered. -/
theorem residueGroup_shifted_last (code : Code) (res : BitVec 75) (s : Sym) :
    residueGroup code (shifted code res s) (ckSymbols code - 1) = s := by
  have hlast : regWidth code - 5 - 5 * (ckSymbols code - 1) = 0 := by cases code <;> rfl
  have hs := s.isLt
  apply BitVec.eq_of_toNat_eq
  rw [residueGroup_toNat, shifted_toNat, hlast]
  omega

/-- After the shift, every other group is the old one below it. -/
theorem residueGroup_shifted (code : Code) (res : BitVec 75) (s : Sym) {g : Nat}
    (hg : g + 1 < ckSymbols code) :
    residueGroup code (shifted code res s) g = residueGroup code res (g + 1) := by
  obtain ⟨low, hlow⟩ : ∃ low, regWidth code - 5 - 5 * g = 5 + low :=
    ⟨regWidth code - 5 - 5 * (g + 1), by rw [regWidth]; omega⟩
  have hlow' : regWidth code - 5 - 5 * (g + 1) = low := by omega
  have hsplit : regWidth code - 5 = low + (5 + 5 * g) := by omega
  have hdiv : (res.toNat % 2 ^ (regWidth code - 5) * 32 + s.toNat) / 2 ^ 5 =
      res.toNat % 2 ^ (regWidth code - 5) := by
    have hs := s.isLt
    omega
  apply BitVec.eq_of_toNat_eq
  rw [residueGroup_toNat, shifted_toNat, residueGroup_toNat, hlow, hlow', Nat.pow_add,
    ← Nat.div_div_eq_div_mul, hdiv, hsplit, Nat.pow_add, Nat.mod_mul_right_div_self,
    Nat.mod_mod_of_dvd _ (Nat.pow_dvd_pow 2 (Nat.le_add_right 5 _))]

/-! The feedback as a product in the field (R13, R14, R100). -/

theorem feedbackTerm_xor (c : Constants) (code : Code) (a b : Sym) (i : Fin 5) :
    feedbackTerm c code (a ^^^ b) i = feedbackTerm c code a i ^^^ feedbackTerm c code b i := by
  simp only [feedbackTerm, BitVec.getLsbD_xor]
  cases a.getLsbD i.val <;> cases b.getLsbD i.val <;> simp

theorem feedback_xor (c : Constants) (code : Code) (a b : Sym) :
    feedback c code (a ^^^ b) = feedback c code a ^^^ feedback c code b := by
  simp only [feedback, feedbackTerm_xor]
  ac_rfl

theorem feedback_zero (c : Constants) (code : Code) : feedback c code 0 = 0 := by
  have h := feedback_xor c code 0 0
  rwa [BitVec.xor_self, BitVec.xor_self] at h

/-- The machine's generators are the multiples of `GEN[0]` by the powers of x, group by group. -/
theorem residueGroup_feedback_basis (code : Code) : ∀ e ∈ symBasis, ∀ g < ckSymbols code,
    residueGroup code (feedback Config.constants code e) g =
      gfmul Config.constants e (residueGroup code (generator Config.constants code 0) g) := by
  cases code with
  | short => decide +kernel
  | long => decide +kernel

/-- The feedback adds the group shifted out times the groups of `GEN[0]`. -/
theorem residueGroup_feedback (code : Code) (top : Sym) {g : Nat} (hg : g < ckSymbols code) :
    residueGroup code (feedback Config.constants code top) g =
      gfmul Config.constants top (residueGroup code (generator Config.constants code 0) g) := by
  induction top using sym_linear_induction with
  | zero =>
    rw [feedback_zero, gfmul_zero_left]
    simp [residueGroup]
  | basis e he => exact residueGroup_feedback_basis code e he g hg
  | xor a b ha hb => rw [feedback_xor, residueGroup_xor, ha, hb, gfmul_xor_left]

/-- The groups after the shift: the old ones moved up by one, the symbol last. -/
theorem residueGroups_shifted (code : Code) (res : BitVec 75) (s : Sym) :
    residueGroups code (shifted code res s) = (residueGroups code res).tail ++ [s] := by
  rw [residueGroups_eq_cons code res, List.tail_cons]
  conv_lhs => rw [residueGroups, ckSymbols_eq_succ, List.range_succ, List.map_append,
    List.map_singleton, residueGroup_shifted_last]
  congr 1
  refine List.map_congr_left fun g hg => residueGroup_shifted code res s ?_
  have := List.mem_range.mp hg
  omega

/-- Settles O39: a step adds the feedback to the shifted register, and both are known group by group. -/
theorem registerIsLfsrOverField : Obligations.RegisterIsLfsrOverField := by
  intro w s _
  rw [cksStep_eq, ← residueGroups_shifted, residueGroups_eq_cons w.code w.res, List.headD_cons]
  apply List.ext_getElem
  · simp
  · intro g hg _
    have hg' : g < ckSymbols w.code := by simpa using hg
    simp only [residueGroups, List.getElem_map, List.getElem_range, List.getElem_zipWith,
      residueStep, residueGroup_xor, residueGroup_feedback w.code _ hg']

/-! The width of the register (R17). -/

theorem shifted_lt (code : Code) (res : BitVec 75) (s : Sym) :
    (shifted code res s).toNat < 2 ^ (5 * ckSymbols code) := by
  have hwidth : 5 * ckSymbols code = regWidth code - 5 + 5 := by cases code <;> rfl
  have hmod := Nat.mod_lt res.toNat (Nat.two_pow_pos (regWidth code - 5))
  have hs := s.isLt
  rw [shifted_toNat, hwidth, Nat.pow_add]
  omega

theorem generator_lt (c : Constants) (code : Code) (i : Fin 5) :
    (generator c code i).toNat < 2 ^ (5 * ckSymbols code) := by
  cases code with
  | short =>
    rw [generator, BitVec.toNat_setWidth]
    exact Nat.lt_of_le_of_lt (Nat.mod_le ..) (c.genS.get i).isLt
  | long => exact (c.genL.get i).isLt

theorem feedbackTerm_lt (c : Constants) (code : Code) (top : Sym) (i : Fin 5) :
    (feedbackTerm c code top i).toNat < 2 ^ (5 * ckSymbols code) := by
  rw [feedbackTerm]
  split
  · exact generator_lt c code i
  · exact Nat.two_pow_pos _

theorem residueStep_lt (c : Constants) (code : Code) (res : BitVec 75) (s : Sym) :
    (residueStep c code res s).toNat < 2 ^ (5 * ckSymbols code) := by
  simp only [residueStep, feedback, BitVec.toNat_xor]
  have hterm := feedbackTerm_lt c code (topOf code res)
  exact Nat.xor_lt_two_pow (shifted_lt code res s) <| Nat.xor_lt_two_pow (Nat.xor_lt_two_pow
    (Nat.xor_lt_two_pow (Nat.xor_lt_two_pow (hterm 0) (hterm 1)) (hterm 2)) (hterm 3)) (hterm 4)

theorem init_lt (c : Constants) (code : Code) :
    (c.init.setWidth 75).toNat < 2 ^ (5 * ckSymbols code) := by
  have hwidth : 2 ^ 65 ≤ 2 ^ (5 * ckSymbols code) := by cases code <;> decide
  rw [BitVec.toNat_setWidth]
  exact Nat.lt_of_le_of_lt (Nat.mod_le ..) (Nat.lt_of_lt_of_le c.init.isLt hwidth)

theorem residue_lt (c : Constants) (code : Code) (syms : List Sym) :
    (residue c code syms).toNat < 2 ^ (5 * ckSymbols code) := by
  rw [residue]
  exact List.foldlRecOn syms (residueStep c code)
    (motive := fun res => res.toNat < 2 ^ (5 * ckSymbols code)) (init_lt c code)
    fun res _ s _ => residueStep_lt c code res s

/-- Settles O37: `INIT` fits in the register, and so does what every step leaves. -/
theorem residueStaysInRegister : Obligations.ResidueStaysInRegister := by
  intro code syms w
  rw [polymod_res]
  exact residue_lt Config.constants code syms

end Sys2Proof.Machine

/-! The entry `INV[0]` is read by no transaction (R12, R192). -/

namespace Sys2Proof.Machine

/-- The constants with another value at `INV[0]`. -/
def withInvZero (c : Constants) (z : Sym) : Constants := { c with inv := c.inv.set 0 z }

theorem invTable_withInvZero (c : Constants) (z : Sym) {a : Sym} (ha : a ≠ 0) :
    invTable (withInvZero c z) a = invTable c a := by
  have hne : 0 ≠ a.toNat := fun h => ha (BitVec.eq_of_toNat_eq h.symm)
  simp only [invTable, withInvZero, Vector.get_eq_getElem, BitVec.val_toFin]
  exact Vector.getElem_set_ne (by decide) a.isLt hne

/-! The units that do not read the table. -/

@[simp] theorem multiply_withInvZero (c : Constants) (z : Sym) :
    multiply (withInvZero c z) = multiply c := rfl

@[simp] theorem lnStep_withInvZero (c : Constants) (z : Sym) :
    lnStep (withInvZero c z) = lnStep c := rfl

@[simp] theorem lmStep_withInvZero (c : Constants) (z : Sym) :
    lmStep (withInvZero c z) = lmStep c := rfl

@[simp] theorem laneRun_withInvZero (c : Constants) (z : Sym) :
    laneRun (withInvZero c z) = laneRun c := rfl

/-! The weights: `LM`, whose inverse is read, is not 0 (R121). -/

theorem lmFactor_ne_zero {x : Sym} {xs : List Sym} (hnd : xs.Nodup) (hx : x ∉ xs) {i j : Nat}
    (hi : i < xs.length) (hj : j < xs.length) : lmFactor x xs i j ≠ 0 := by
  rw [lmFactor, List.getD_eq_getElem _ _ hi, List.getD_eq_getElem _ _ hj]
  split
  · intro h
    exact hx (BitVec.xor_eq_zero_iff.mp h ▸ List.getElem_mem hj)
  · next hji =>
    intro h
    exact hji ((hnd.getElem_inj_iff.mp (BitVec.xor_eq_zero_iff.mp h)).symm)

theorem lmValue_ne_zero {c : Constants} (hc : FieldLaws c) {x : Sym} {xs : List Sym}
    (hnd : xs.Nodup) (hx : x ∉ xs) {i : Nat} (hi : i < xs.length) :
    lmValue c x xs i (List.range xs.length) 1 ≠ 0 := by
  rw [lmValue, ← List.foldl_map, ← productOf]
  refine hc.productOf_ne_zero fun y hy => ?_
  obtain ⟨j, hj, rfl⟩ := List.mem_map.mp hy
  exact lmFactor_ne_zero hnd hx hi (List.mem_range.mp hj)

theorem weightStep_withInvZero {c : Constants} (hc : FieldLaws c) (z : Sym) {w : Work}
    (hnd : w.xs.Nodup) (hx : w.x ∉ w.xs) {i : Nat} (hi : i < w.xs.length) :
    weightStep (withInvZero c z) w i = weightStep c w i := by
  obtain ⟨hlm, -⟩ := foldl_lmStep c i (List.range w.xs.length) { w with lm := 1 }
  have hread := invTable_withInvZero c z (hlm ▸ lmValue_ne_zero hc hnd hx hi)
  simp only [weightStep, lmStep_withInvZero, multiply_withInvZero, hread]

theorem foldl_weightStep_withInvZero {c : Constants} (hc : FieldLaws c) (z : Sym) (l : List Nat)
    {w : Work} (hnd : w.xs.Nodup) (hx : w.x ∉ w.xs) (hl : ∀ i ∈ l, i < w.xs.length) :
    l.foldl (weightStep (withInvZero c z)) w = l.foldl (weightStep c) w := by
  induction l generalizing w with
  | nil => rfl
  | cons i rest ih =>
    obtain ⟨-, ⟨hxs, hx'⟩, -⟩ := weightStep_spec c w i
    rw [List.foldl_cons, List.foldl_cons, weightStep_withInvZero hc z hnd hx (hl i (by simp))]
    refine ih ?_ ?_ fun j hj => ?_
    · rwa [hxs]
    · rwa [hxs, hx']
    · rw [hxs]
      exact hl j (by simp [hj])

theorem weightsRun_withInvZero {c : Constants} (hc : FieldLaws c) (z : Sym) {x : Sym}
    {xs : List Sym} (hpf : pointFault x xs = none) (w : Work) :
    weightsRun (withInvZero c z) (lgrLoad x xs w) = weightsRun c (lgrLoad x xs w) := by
  obtain ⟨hnd, hx⟩ : xs.Nodup ∧ x ∉ xs := by
    rw [pointFault_eq] at hpf
    split_ifs at hpf with hnd hx
    exact ⟨hnd, hx⟩
  obtain ⟨-, ⟨hxs, hx'⟩, -⟩ :=
    foldl_lnStep c (List.range (lgrLoad x xs w).xs.length) { lgrLoad x xs w with ln := 1 }
  rw [weightsRun, weightsRun, lnStep_withInvZero]
  refine foldl_weightStep_withInvZero hc z _ ?_ ?_ fun i hi => List.mem_range.mp hi
  · rw [hxs]
    exact hnd
  · rw [hxs, hx']
    exact hx

/-! The three commands that read the table. -/

theorem gfinvRun_withInvZero (c : Constants) (z a : Sym) (inp : List Byte) (r : Run) :
    gfinvRun (withInvZero c z) a inp r = gfinvRun c a inp r := by
  by_cases ha : a = 0
  · simp only [gfinvRun, if_pos ha]
  · simp only [gfinvRun, if_neg ha, invTable_withInvZero c z ha]

theorem lagwRun_withInvZero {c : Constants} (hc : FieldLaws c) (z x : Sym) (inp : List Byte)
    (r : Run) : lagwRun (withInvZero c z) x inp r = lagwRun c x inp r := by
  cases hsyms : readSymbols inp with
  | error e => simp only [lagwRun, hsyms]
  | ok xs =>
    cases hpf : pointFault x xs with
    | some f => simp only [lagwRun, hsyms, hpf]
    | none => simp only [lagwRun, hsyms, hpf, weightsRun_withInvZero hc z hpf]

theorem interpRun_withInvZero {c : Constants} (hc : FieldLaws c) (z k x : Sym) (inp : List Byte)
    (r : Run) : interpRun (withInvZero c z) k x inp r = interpRun c k x inp r := by
  cases hsyms : readSymbols inp with
  | error e => simp only [interpRun, hsyms]
  | ok syms =>
    cases hpf : pointFault x
        ((vectors k.toNat (inp.length / k.toNat) syms).map xCoordinate) with
    | some f => simp only [interpRun, hsyms, hpf]
    | none =>
      simp only [interpRun, hsyms, hpf, weightsRun_withInvZero hc z hpf, laneRun_withInvZero]

/-- Settles O57: `GFINV` reads the table at an operand other than 0, the interpolator at an `LM` other
than 0. -/
theorem inverseOfZeroNeverRead : Obligations.InverseOfZeroNeverRead := by
  intro z a k x inp r
  exact ⟨gfinvRun_withInvZero _ z a inp r, lagwRun_withInvZero fieldLaws_constants z x inp r,
    interpRun_withInvZero fieldLaws_constants z k x inp r⟩

end Sys2Proof.Machine

/-! Reset, host scripts without a bound, and the registers of the converter and the multiplier. -/

namespace Sys2Proof.Machine

/-! Transactions under the configured `MAX_LEN`, which is none (R3, R57, R190). -/

theorem transact_result (cw : CmdWord) (inp : List Byte) (s : State) :
    (transact cw inp s).result = some (transactionAnswer Config.constants cw inp) := by
  obtain ⟨t, ht, hresult⟩ := transactWithin_of_allowed (lengthAllowed_none inp.length) cw s
  rw [transact, Config.maxLen, ht, Option.getD_some, hresult]

/-- Settles O16: under no bound every transaction of the script is issued and answered. -/
theorem scriptAnswersEachAlone : Obligations.ScriptAnswersEachAlone := by
  intro script s
  rw [runScript_eq, runScriptWithin_eq_map]
  simp only [lengthAllowed_none, if_true]

/-- Settles O24: a transaction's result is the reading's, from whatever state it is issued in. -/
theorem resetIsUnobservable : Obligations.ResetIsUnobservable := by
  intro s
  refine ⟨applyReset_phase s, result_applyReset s, fun cw inp => ⟨?_, ?_⟩⟩
  · rw [transact_result, transact_result]
  · rw [transact_result, transact_result]

/-- Settles O23: both are read off the state that `State.reset` writes out. -/
theorem resetIsIdle : Obligations.ResetIsIdle := ⟨rfl, rfl⟩

/-! What the streaming loop leaves in `ACC` and `NB` (R15, R70). -/

/-- A stream that the converter takes is in range. -/
theorem lt_of_cvtStream_ok {f t : Nat} {data : List Byte} {r r' : Run}
    (h : cvtStream f t data r = .ok r') : ∀ v ∈ data, v.toNat < 2 ^ f := by
  intro v hv
  by_contra hge
  rw [cvtStream_error data ⟨v, hv, Nat.le_of_not_lt hge⟩] at h
  cases h

theorem leftoverBits_eq_drop_sub (t : Nat) (bits : List Bool) :
    leftoverBits t bits = bits.drop (bits.length - bits.length % t) := by
  have := Nat.div_add_mod' bits.length t
  rw [leftoverBits]
  congr 1
  omega

/-- From empty registers, the stream leaves the bits over in them. -/
theorem holdsBits_of_cvtStream_ok {f t : Nat} (ht : 0 < t) (hft : f + t ≤ 13) {data : List Byte}
    {r r' : Run} (h : cvtStream f t data { r with work := cvtInit r.work } = .ok r') :
    HoldsBits r'.work (leftoverBits t (bitString f data)) := by
  obtain ⟨r'', hok, -, hheld⟩ := (holdsBits_cvtInit r.work).stream
    (r := { r with work := cvtInit r.work }) ht hft data (lt_of_cvtStream_ok h) ht
  obtain rfl : r'' = r' := Except.ok.inj (hok.symm.trans h)
  exact hheld

/-- Settles O28: `ACC` and `NB` hold the bits that are left over when the groups are cut off. -/
theorem accumulatorHoldsLeftover : Obligations.AccumulatorHoldsLeftover := by
  intro f t hdir data r r' h
  obtain ⟨ht, hft⟩ : 0 < t ∧ f + t ≤ 13 := by omega
  have hheld := holdsBits_of_cvtStream_ok ht hft h
  have hnb : r'.work.nb.val = f * data.length % t := by
    rw [hheld.nb, leftoverBits_length, bitString_length]
  refine ⟨hnb ▸ Nat.mod_lt _ ht, ?_, hnb, ?_⟩
  · rw [hheld.acc, hheld.nb]
    exact bitsValue_lt _
  · rw [hheld.acc, leftoverBits_eq_drop_sub, hnb, bitString_length]

/-! `MA` after doubling and reduction (R16, R86). -/

theorem doubleReduce_toNat (c : Constants) {ma : BitVec 6} (h : ma.toNat < 32) :
    (doubleReduce c ma).toNat = doubleNat c.reduce.toNat ma.toNat := by
  have hdouble : (ma <<< 1).toNat = 2 * ma.toNat := by
    rw [BitVec.toNat_shiftLeft, Nat.shiftLeft_eq]
    omega
  rw [doubleReduce, doubleNat, hdouble]
  split
  · rw [BitVec.toNat_xor, hdouble]
  · exact hdouble

theorem doubleNat_lt : ∀ a < 32, doubleNat 41 a < 32 := by decide

/-- Settles O34: the register's doubling is the one on integers, which `REDUCE` brings back below 32. -/
theorem reducedMAStaysInField : Obligations.ReducedMAStaysInField := by
  intro ma h
  have hdouble := doubleReduce_toNat Config.constants h
  exact ⟨hdouble ▸ doubleNat_lt _ h, hdouble⟩

end Sys2Proof.Machine

/-! A transaction as the step runs it, its frame, and the range of what it emits (R32, R40, R171,
R197). -/

namespace Sys2Proof.Machine

/-- Settles O15: a step of an issued transaction leads to `endedState`, which is the reading's, command by
command (`exec_eq_endTransaction`). -/
theorem transactionsMeetReading : Obligations.TransactionsMeetReading := by
  intro s hissued
  rw [step_of_issued hissued, endedState]

/-- Settles O7: of the two branches of a step of an issued block, the word selects the command's. -/
theorem stepRunsDecoded : Obligations.StepRunsDecoded := by
  intro s i hissued hdecode
  simp only [step, hissued, fetchWord_eq, hdecode]

/-- All that a command can do. -/
theorem exec_eq_next_iff {i : Instr} {s t : State} :
    exec i s = .next t ↔ t = endTransaction (answerOf Config.constants i s.inp).1
      (answerOf Config.constants i s.inp).2 s := by
  rw [exec_eq_endTransaction, Host.Outcome.next.injEq, eq_comm]

/-! A fault empties `OUT` (R32, R171). -/

theorem answerOf_sound (c : Constants) (i : Instr) (inp : List Byte) :
    (answerOf c i inp).1 ≠ .ok → (answerOf c i inp).2 = [] := by
  rw [answerOf]
  cases reportedFault i inp with
  | some f => exact fun _ => rfl
  | none => exact fun h => absurd rfl h

theorem transactionAnswer_sound (c : Constants) (cw : CmdWord) (inp : List Byte) :
    (transactionAnswer c cw inp).1 ≠ .ok → (transactionAnswer c cw inp).2 = [] := by
  rw [transactionAnswer]
  cases decode cw with
  | ok i => exact answerOf_sound c i inp
  | error e => exact fun _ => rfl

theorem endedState_resultSound (s : State) : (endedState s).resultSound :=
  transactionAnswer_sound Config.constants s.cw s.inp

/-- Settles O11: a command does nothing to the state but end the transaction. -/
theorem commandFrame : Obligations.CommandFrame := by
  intro i s t hexec
  obtain rfl := exec_eq_next_iff.mp hexec
  exact ⟨rfl, rfl, rfl, rfl, answerOf_sound Config.constants i s.inp⟩

/-- Settles O17: a step ends a transaction with a sound answer, or changes nothing. -/
theorem stepKeepsResultSound : Obligations.StepKeepsResultSound := by
  intro s t hs hst
  rcases step_cases s with ⟨-, hstep⟩ | ⟨-, hstep⟩
  · obtain rfl : endedState s = t := Host.Outcome.next.inj (hstep.symm.trans hst)
    exact endedState_resultSound s
  · obtain rfl : s = t := Host.Outcome.next.inj (hstep.symm.trans hst)
    exact hs

/-! The range of the elements of the reading's outputs (R32, R197). -/

theorem toNat_ofNat_lt_of_lt {n m : Nat} (h : n < m) : (BitVec.ofNat 8 n).toNat < m := by
  rw [BitVec.toNat_ofNat]
  exact Nat.mod_lt_of_lt h

theorem lt_of_mem_cutGroups {t : Nat} {bits : List Bool} {v : Byte} (hv : v ∈ cutGroups t bits) :
    v.toNat < 2 ^ t := by
  obtain ⟨j, -, rfl⟩ := List.mem_map.mp hv
  refine toNat_ofNat_lt_of_lt (Nat.lt_of_lt_of_le (bitsValue_lt _) ?_)
  exact Nat.pow_le_pow_right (by decide) (List.length_take_le t _)

theorem lt_of_mem_regroup {f t : Nat} {pad : Bool} {inp : List Byte} {v : Byte}
    (hv : v ∈ regroup f t pad inp) : v.toNat < 2 ^ t := lt_of_mem_cutGroups hv

theorem lt_of_mem_groupsNat {code : Code} {res : Nat} {v : Byte} (hv : v ∈ groupsNat code res) :
    v.toNat < 32 := by
  obtain ⟨g, -, rfl⟩ := List.mem_map.mp hv
  exact toNat_ofNat_lt_of_lt (Nat.mod_lt _ (by decide))

theorem lt_of_mem_map_symToByte {syms : List Sym} {v : Byte} (hv : v ∈ syms.map symToByte) :
    v.toNat < 32 := by
  obtain ⟨y, -, rfl⟩ := List.mem_map.mp hv
  exact symToByte_lt y

theorem outputOf_gfmul (a b : Sym) (inp : List Byte) :
    outputOf Config.constants (.gfmul a b) inp = [gfmul Config.constants a b].map symToByte := by
  rw [outputOf, ← gfmul_toNat, ← symToByte_eq_ofNat, List.map_singleton]

theorem mem_outputOf_verify {c : Constants} {inp : List Byte} {v : Byte}
    (hv : v ∈ outputOf c .verify inp) : v = 0 ∨ v = 1 := by
  rw [outputOf] at hv
  split at hv
  · exact .inl (List.mem_singleton.mp hv)
  · split at hv
    · exact .inr (List.mem_singleton.mp hv)
    · exact .inl (List.mem_singleton.mp hv)

theorem emitsOnly_of_mem_outputOf (i : Instr) {inp : List Byte} {v : Byte}
    (hv : v ∈ outputOf Config.constants i inp) : emitsOnly i v := by
  cases i with
  | cvt58 | cvt58p => trivial
  | cvt85 | cvt85p => exact lt_of_mem_regroup hv
  | gfmul a b => exact lt_of_mem_map_symToByte (outputOf_gfmul a b inp ▸ hv)
  | gfinv a => exact lt_of_mem_map_symToByte (syms := [invTable Config.constants a]) hv
  | pmods | pmodl | cksum => exact lt_of_mem_groupsNat hv
  | verify => exact mem_outputOf_verify hv
  | lagw x => exact lt_of_mem_map_symToByte hv
  | interp k x =>
    obtain ⟨j, -, rfl⟩ := List.mem_map.mp hv
    exact symToByte_lt _

/-- An answer emits the reading's output, or nothing. -/
theorem mem_outputOf_of_mem_answerOf {c : Constants} {i : Instr} {inp : List Byte} {v : Byte}
    (hv : v ∈ (answerOf c i inp).2) : v ∈ outputOf c i inp := by
  rw [answerOf] at hv
  cases hreport : reportedFault i inp with
  | some f =>
    rw [hreport] at hv
    exact absurd hv List.not_mem_nil
  | none => rwa [hreport] at hv

/-- Settles O21: `OUT` holds elements of the reading's output only, and these are in range for each
command. -/
theorem outputsInRange : Obligations.OutputsInRange := by
  intro i s t hexec v hv
  obtain rfl := exec_eq_next_iff.mp hexec
  exact emitsOnly_of_mem_outputOf i (mem_outputOf_of_mem_answerOf hv)

end Sys2Proof.Machine

/-! The opcode map as intervals of words (`30_encoding.md` R50 to R54). A mask keeps the high bits of a
word, so the words that select a row are the consecutive values from its pattern on; the fields, the
opcode and the reserved bits are quotients and remainders of the word's value. -/

namespace Sys2Proof

/-! The parts of a word as numbers. -/

theorem toNat_zero_sym : (0 : Sym).toNat = 0 := rfl

theorem opcodeOf_toNat (w : CmdWord) : (opcodeOf w).toNat = w.toNat / 4096 := by
  have hw := w.isLt
  rw [opcodeOf, BitVec.extractLsb'_toNat, Nat.shiftRight_eq_div_pow]
  omega

theorem fieldLo_toNat (w : CmdWord) : (fieldLo w).toNat = w.toNat % 32 := by
  rw [fieldLo, BitVec.extractLsb'_toNat, Nat.shiftRight_zero]

theorem fieldHi_toNat (w : CmdWord) : (fieldHi w).toNat = w.toNat / 32 % 32 := by
  rw [fieldHi, BitVec.extractLsb'_toNat, Nat.shiftRight_eq_div_pow]

theorem bitsZero_iff (w : CmdWord) (hi lo : Nat) :
    bitsZero w hi lo = true ↔ w.toNat / 2 ^ lo % 2 ^ (hi + 1 - lo) = 0 := by
  rw [bitsZero, beq_iff_eq, ← BitVec.toNat_inj, BitVec.extractLsb'_toNat,
    Nat.shiftRight_eq_div_pow]
  rfl

theorem wordOf_toNat {p : CmdWord} (hp : p.toNat % 1024 = 0) (lo hi : Sym) :
    (wordOf p lo hi).toNat = p.toNat + 32 * hi.toNat + lo.toNat := by
  have hlo := lo.isLt
  have hhi := hi.isLt
  obtain ⟨q, hq⟩ : ∃ q, p.toNat = 2 ^ 10 * q := ⟨p.toNat / 1024, by omega⟩
  have hshift : (hi.setWidth 16 <<< 5).toNat = 2 ^ 5 * hi.toNat := by
    rw [BitVec.toNat_shiftLeft, BitVec.toNat_setWidth, Nat.shiftLeft_eq]
    omega
  have hlow : (lo.setWidth 16).toNat = lo.toNat := by
    rw [BitVec.toNat_setWidth]
    omega
  rw [wordOf, BitVec.toNat_or, BitVec.toNat_or, hshift, hlow, hq,
    ← Nat.two_pow_add_eq_or_of_lt (by omega : 2 ^ 5 * hi.toNat < 2 ^ 10),
    show 2 ^ 10 * q + 2 ^ 5 * hi.toNat = 2 ^ 5 * (2 ^ 5 * q + hi.toNat) by omega,
    ← Nat.two_pow_add_eq_or_of_lt hlo]
  omega

theorem fieldLo_wordOf {p : CmdWord} (hp : p.toNat % 1024 = 0) (lo hi : Sym) :
    fieldLo (wordOf p lo hi) = lo := by
  have hlo := lo.isLt
  apply BitVec.eq_of_toNat_eq
  rw [fieldLo_toNat, wordOf_toNat hp]
  omega

theorem fieldHi_wordOf {p : CmdWord} (hp : p.toNat % 1024 = 0) (lo hi : Sym) :
    fieldHi (wordOf p lo hi) = hi := by
  have hlo := lo.isLt
  have hhi := hi.isLt
  apply BitVec.eq_of_toNat_eq
  rw [fieldHi_toNat, wordOf_toNat hp]
  omega

/-! The rows. -/

/-- How many words select a row (`selects_iff_of_mem`): one for each value of the bits its mask drops. -/
def Row.size (r : Row) : Nat := 2 ^ 16 - r.mask.toNat

theorem toNat_and_highMask (w : CmdWord) (k : Nat) :
    (w &&& (BitVec.allOnes 16 <<< k)).toNat = w.toNat / 2 ^ k * 2 ^ k := by
  have hmask : w &&& (BitVec.allOnes 16 <<< k) = (w >>> k) <<< k := by
    ext j hj
    simp only [BitVec.getElem_and, BitVec.getElem_shiftLeft, BitVec.getElem_allOnes,
      BitVec.getElem_ushiftRight]
    by_cases hjk : j < k
    · simp [hjk]
    · simp [hjk, Nat.add_sub_cancel' (Nat.le_of_not_lt hjk), BitVec.getLsbD_eq_getElem hj]
  have hle : w.toNat / 2 ^ k * 2 ^ k < 2 ^ 16 := (Nat.div_mul_le_self _ _).trans_lt w.isLt
  rw [hmask, BitVec.toNat_shiftLeft, BitVec.toNat_ushiftRight, Nat.shiftLeft_eq,
    Nat.shiftRight_eq_div_pow, Nat.mod_eq_of_lt hle]

/-- Every mask keeps the high bits, and every pattern is 0 in the bits it does not keep. -/
theorem mask_pattern_of_mem_rows : ∀ r ∈ rows, ∃ k ∈ [0, 5, 10],
    r.mask = BitVec.allOnes 16 <<< k ∧ r.size = 2 ^ k ∧ r.pattern.toNat % 2 ^ k = 0 := by
  decide

/-- The words that select a row are the consecutive ones from its pattern on. -/
theorem selects_iff_of_mem {r : Row} (hr : r ∈ rows) (w : CmdWord) :
    r.selects w = true ↔ r.pattern.toNat ≤ w.toNat ∧ w.toNat < r.pattern.toNat + r.size := by
  obtain ⟨k, -, hmask, hsize, hpat⟩ := mask_pattern_of_mem_rows r hr
  rw [Row.selects, beq_iff_eq, ← BitVec.toNat_inj, hmask, toNat_and_highMask, hsize]
  obtain ⟨q, hq⟩ := Nat.dvd_of_mod_eq_zero hpat
  have hpos := Nat.two_pow_pos k
  rw [hq, Nat.mul_comm, Nat.mul_right_inj hpos.ne', Nat.div_eq_iff hpos, Nat.mul_comm q]
  omega

theorem rows_ascend : rows.Pairwise fun r r' => r.pattern.toNat + r.size ≤ r'.pattern.toNat := by
  decide

/-- Settles O4: the rows stand in ascending order, each interval ending before the next begins. -/
theorem opcodeRowsDisjoint : Obligations.OpcodeRowsDisjoint := by
  refine ⟨rfl, rows_ascend.imp_of_mem fun {r r'} hr hr' hle w hboth => ?_⟩
  obtain ⟨hsel, hsel'⟩ := hboth
  rw [selects_iff_of_mem hr] at hsel
  rw [selects_iff_of_mem hr'] at hsel'
  omega

theorem eq_of_selects {r r' : Row} {w : CmdWord} (hr : r ∈ rows) (hr' : r' ∈ rows)
    (hsel : r.selects w = true) (hsel' : r'.selects w = true) : r = r' := by
  by_contra hne
  have hsymm : Std.Symm fun r r' : Row => ∀ w, ¬ (r.selects w = true ∧ r'.selects w = true) :=
    ⟨fun _ _ h w hboth => h w hboth.symm⟩
  exact opcodeRowsDisjoint.2.forall hr hr' hne w ⟨hsel, hsel'⟩

/-! The decoder. -/

theorem decode_of_selects {r : Row} {w : CmdWord} (hr : r ∈ rows) (hsel : r.selects w = true) :
    decode w = .ok (r.build (fieldLo w) (fieldHi w)) := by
  cases hfind : rows.find? (Row.selects · w) with
  | none => exact absurd hsel (List.find?_eq_none.mp hfind r hr)
  | some r' =>
    have hsel' : r'.selects w = true := List.find?_some (p := (Row.selects · w)) hfind
    obtain rfl := eq_of_selects hr (List.mem_of_find?_eq_some hfind) hsel hsel'
    rw [decode, hfind]

theorem decode_of_not_selects {w : CmdWord} (h : ∀ r ∈ rows, ¬ r.selects w = true) :
    decode w = .error (illegality w) := by
  rw [decode, List.find?_eq_none.mpr h]

theorem decode_eq_ok_iff {w : CmdWord} {i : Instr} :
    decode w = .ok i ↔ ∃ r ∈ rows, r.selects w = true ∧ r.build (fieldLo w) (fieldHi w) = i := by
  constructor
  · intro hdec
    by_contra hnone
    have hnot : ∀ r ∈ rows, ¬ r.selects w = true := by
      intro r hr hsel
      rw [decode_of_selects hr hsel] at hdec
      exact hnone ⟨r, hr, hsel, Except.ok.inj hdec⟩
    rw [decode_of_not_selects hnot] at hdec
    cases hdec
  · rintro ⟨r, hr, hsel, rfl⟩
    exact decode_of_selects hr hsel

/-- A word made of a row's pattern and operands that fit its free bits decodes to the row's command. -/
theorem decode_wordOf {r : Row} (hr : r ∈ rows) (hp : r.pattern.toNat % 1024 = 0) {lo hi : Sym}
    (hfit : 32 * hi.toNat + lo.toNat < r.size) :
    decode (wordOf r.pattern lo hi) = .ok (r.build lo hi) := by
  have hsel : r.selects (wordOf r.pattern lo hi) = true := by
    rw [selects_iff_of_mem hr, wordOf_toNat hp]
    omega
  rw [decode_of_selects hr hsel, fieldLo_wordOf hp, fieldHi_wordOf hp]

theorem decode_wordOf_one {r : Row} (hr : r ∈ rows) (hp : r.pattern.toNat % 1024 = 0)
    (hsize : r.size = 32) (x : Sym) : decode (wordOf r.pattern x 0) = .ok (r.build x 0) :=
  decode_wordOf hr hp (by rw [toNat_zero_sym, hsize]; have := x.isLt; omega)

theorem decode_wordOf_two {r : Row} (hr : r ∈ rows) (hp : r.pattern.toNat % 1024 = 0)
    (hsize : r.size = 1024) (x y : Sym) : decode (wordOf r.pattern x y) = .ok (r.build x y) :=
  decode_wordOf hr hp (by have := x.isLt; have := y.isLt; omega)

/-- Settles O1: a command without operands has the one word of its row; the others have the word of their
row's pattern with the operands in the fields the row reads. -/
theorem decodeOfEncode : Obligations.DecodeOfEncode := by
  intro i _
  cases i with
  | cvt58 | cvt58p | cvt85 | cvt85p | pmods | pmodl | cksum | verify => rfl
  | gfmul a b => exact decode_wordOf_two (r := rows[4]) (List.getElem_mem _) rfl rfl a b
  | gfinv a => exact decode_wordOf_one (r := rows[5]) (List.getElem_mem _) rfl rfl a
  | lagw x => exact decode_wordOf_one (r := rows[10]) (List.getElem_mem _) rfl rfl x
  | interp k x => exact decode_wordOf_two (r := rows[11]) (List.getElem_mem _) rfl rfl x k

/-- The word of a row's command is the row's pattern with the operands its free bits leave room for. -/
theorem encode_build_of_mem_rows : ∀ r ∈ rows,
    (r.size = 1 ∧ ∀ lo hi, encode (r.build lo hi) = r.pattern) ∨
    (r.size = 32 ∧ r.pattern.toNat % 1024 = 0 ∧
      ∀ lo hi, encode (r.build lo hi) = wordOf r.pattern lo 0) ∨
    (r.size = 1024 ∧ r.pattern.toNat % 1024 = 0 ∧
      ∀ lo hi, encode (r.build lo hi) = wordOf r.pattern lo hi) := by
  simp only [rows, List.forall_mem_cons]
  exact ⟨
    .inl ⟨rfl, fun _ _ => rfl⟩, .inl ⟨rfl, fun _ _ => rfl⟩,
    .inl ⟨rfl, fun _ _ => rfl⟩, .inl ⟨rfl, fun _ _ => rfl⟩,
    .inr (.inr ⟨rfl, rfl, fun _ _ => rfl⟩), .inr (.inl ⟨rfl, rfl, fun _ _ => rfl⟩),
    .inl ⟨rfl, fun _ _ => rfl⟩, .inl ⟨rfl, fun _ _ => rfl⟩,
    .inl ⟨rfl, fun _ _ => rfl⟩, .inl ⟨rfl, fun _ _ => rfl⟩,
    .inr (.inl ⟨rfl, rfl, fun _ _ => rfl⟩), .inr (.inr ⟨rfl, rfl, fun _ _ => rfl⟩),
    fun _ h => absurd h List.not_mem_nil⟩

/-- Settles O2: a word lies in its row's interval, and the bits the row leaves free are the ones its
command's operands are read from. -/
theorem encodeOfDecode : Obligations.EncodeOfDecode := by
  intro w i hdec
  obtain ⟨r, hr, hsel, rfl⟩ := decode_eq_ok_iff.mp hdec
  obtain ⟨hge, hlt⟩ := (selects_iff_of_mem hr w).mp hsel
  apply BitVec.eq_of_toNat_eq
  rcases encode_build_of_mem_rows r hr with ⟨hsize, henc⟩ | ⟨hsize, hp, henc⟩ | ⟨hsize, hp, henc⟩
  · rw [henc]
    omega
  · rw [henc, wordOf_toNat hp, fieldLo_toNat, toNat_zero_sym]
    omega
  · rw [henc, wordOf_toNat hp, fieldLo_toNat, fieldHi_toNat]
    omega

/-! Legality: an assigned opcode, and below it a number that the format's free bits can hold (R53). -/

/-- How many words of an opcode have the reserved bits of its format 0. -/
def Format.size (opc : BitVec 4) : Format → Nat
  | .z => 1
  | .f => if opc = 4 then 2 else 4
  | .s => 32
  | .ss => 1024

theorem reservedZero_iff (w : CmdWord) (fmt : Format) :
    reservedZero w fmt = true ↔ w.toNat % 4096 < fmt.size (opcodeOf w) := by
  cases fmt with
  | z | s | ss =>
    simp only [reservedZero, Format.size, Bool.and_eq_true, bitsZero_iff]
    omega
  | f =>
    simp only [reservedZero, Format.size, Bool.and_eq_true, Bool.or_eq_true, bne_iff_ne,
      bitsZero_iff]
    by_cases hop : opcodeOf w = 4
    · rw [if_pos hop, or_iff_right (not_not_intro hop)]
      omega
    · simp only [ne_eq, hop, not_false_eq_true, true_or, and_true, if_false]
      omega

theorem legalWord_iff (w : CmdWord) : legalWord w = true ↔
    ∃ fmt, formatOf (opcodeOf w) = some fmt ∧ w.toNat % 4096 < fmt.size (opcodeOf w) := by
  rw [legalWord]
  cases formatOf (opcodeOf w) with
  | none => simp
  | some fmt => simp [reservedZero_iff]

/-- A row's words lie in the words of one opcode with the reserved bits of its format 0. -/
theorem size_le_of_mem_rows : ∀ r ∈ rows, ∃ fmt ∈ formatOf (opcodeOf r.pattern),
    r.pattern.toNat % 4096 + r.size ≤ fmt.size (opcodeOf r.pattern) := by
  decide

theorem Format.size_le (opc : BitVec 4) (fmt : Format) : fmt.size opc ≤ 1024 := by
  cases fmt <;> simp [Format.size]
  split <;> decide

theorem legalWord_of_selects {r : Row} {w : CmdWord} (hr : r ∈ rows) (hsel : r.selects w = true) :
    legalWord w = true := by
  obtain ⟨fmt, hfmt, hsize⟩ := size_le_of_mem_rows r hr
  obtain ⟨hge, hlt⟩ := (selects_iff_of_mem hr w).mp hsel
  have hle := fmt.size_le (opcodeOf r.pattern)
  have hop : opcodeOf w = opcodeOf r.pattern := by
    apply BitVec.eq_of_toNat_eq
    rw [opcodeOf_toNat, opcodeOf_toNat]
    omega
  rw [legalWord_iff, hop]
  exact ⟨fmt, hfmt, by omega⟩

/-- A format without flag bits is one row. -/
theorem exists_row_of_format_ne_f : ∀ opc, ∀ fmt ∈ formatOf opc, fmt ≠ .f →
    ∃ r ∈ rows, r.pattern.toNat = 4096 * opc.toNat ∧ r.size = fmt.size opc := by
  decide

/-- A format with flag bits is one row for each value of them. -/
theorem exists_row_of_format_f : ∀ opc, Format.f ∈ formatOf opc → ∀ m < Format.f.size opc,
    ∃ r ∈ rows, r.pattern.toNat = 4096 * opc.toNat + m ∧ r.size = 1 := by
  decide

theorem exists_selects_of_legalWord {w : CmdWord} (h : legalWord w = true) :
    ∃ r ∈ rows, r.selects w = true := by
  obtain ⟨fmt, hfmt, hlt⟩ := (legalWord_iff w).mp h
  have hop := opcodeOf_toNat w
  by_cases hf : fmt = .f
  · subst hf
    obtain ⟨r, hr, hp, hsize⟩ := exists_row_of_format_f _ hfmt _ hlt
    exact ⟨r, hr, (selects_iff_of_mem hr w).mpr (by omega)⟩
  · obtain ⟨r, hr, hp, hsize⟩ := exists_row_of_format_ne_f _ _ hfmt hf
    exact ⟨r, hr, (selects_iff_of_mem hr w).mpr (by omega)⟩

theorem decode_of_illegal {w : CmdWord} (h : legalWord w = false) :
    decode w = .error (illegality w) := by
  refine decode_of_not_selects fun r hr hsel => ?_
  rw [legalWord_of_selects hr hsel] at h
  cases h

/-- Settles O3: the rows' intervals are together the legal words, and an illegal word has the name of what
is wrong with it. -/
theorem legalWordsDecode : Obligations.LegalWordsDecode := by
  intro w
  refine ⟨⟨?_, ?_⟩, ?_, ?_⟩
  · rintro ⟨i, hdec⟩
    obtain ⟨r, hr, hsel, -⟩ := decode_eq_ok_iff.mp hdec
    exact legalWord_of_selects hr hsel
  · intro hlegal
    obtain ⟨r, hr, hsel⟩ := exists_selects_of_legalWord hlegal
    exact ⟨_, decode_of_selects hr hsel⟩
  · intro hnone
    rw [decode_of_illegal (by simp only [legalWord, hnone]), illegality, hnone]
  · intro fmt hfmt hset
    rw [decode_of_illegal (by simp only [legalWord, hfmt, hset]), illegality, hfmt]

/-- Settles O5: the decoder is evaluated on each of the nine words. -/
theorem writtenWordsDecode : Obligations.WrittenWordsDecode := by
  unfold Obligations.WrittenWordsDecode
  decide

/-- Settles O6: the secret index 16 stands in the field of the target. -/
theorem recoverIsInterpAtSecretIndex : Obligations.RecoverIsInterpAtSecretIndex :=
  fun _ => ⟨rfl, rfl⟩

/-- Settles O8: the decoder rejects an illegal word, and either name of the illegality ends the
transaction alike. -/
theorem illegalWordFaults : Obligations.IllegalWordFaults := by
  intro s hissued hillegal
  simp only [Machine.step, hissued, Machine.fetchWord_eq, decode_of_illegal hillegal,
    Machine.rejectWord_eq]

end Sys2Proof

/-! The four conversions as commands (R70 to R75): what each delivers or raises, how many groups it emits,
and the two round trips between bytes and payload. -/

namespace Sys2Proof.Machine

/-! A bit string is determined by its length and value (R33). -/

theorem eq_of_boolToNat_eq : ∀ x y : Bool, x.toNat = y.toNat → x = y := by decide

theorem eq_of_bitsValue_eq {a b : List Bool} (hlen : a.length = b.length)
    (h : bitsValue a = bitsValue b) : a = b := by
  induction a generalizing b with
  | nil => exact (List.length_eq_zero_iff.mp hlen.symm).symm
  | cons x xs ih =>
    obtain ⟨y, ys, rfl⟩ := List.exists_cons_of_length_eq_add_one hlen.symm
    have htail : xs.length = ys.length := Nat.succ.inj hlen
    have hxs := bitsValue_lt xs
    have hys := bitsValue_lt ys
    rw [htail] at hxs
    rw [bitsValue_cons, bitsValue_cons, htail] at h
    have hhead : x.toNat = y.toNat := by
      have hdiv := congrArg (· / 2 ^ ys.length) h
      simpa only [Nat.mul_comm _ (2 ^ ys.length), Nat.mul_add_div (Nat.two_pow_pos _),
        Nat.div_eq_of_lt hxs, Nat.div_eq_of_lt hys, Nat.add_zero] using hdiv
    rw [hhead] at h
    rw [eq_of_boolToNat_eq _ _ hhead, ih htail (Nat.add_left_cancel h)]

/-- The element cut from a group of digits holds those digits. -/
theorem groupBits_ofNat_bitsValue {t : Nat} (ht : t ≤ 8) {bits : List Bool} (hlen : bits.length = t) :
    groupBits t (BitVec.ofNat 8 (bitsValue bits)) = bits := by
  have hlt : bitsValue bits < 2 ^ t := hlen ▸ bitsValue_lt bits
  refine eq_of_bitsValue_eq ((groupBits_length t _).trans hlen.symm) ?_
  rw [bitsValue_groupBits, BitVec.toNat_ofNat,
    Nat.mod_eq_of_lt (hlt.trans_le (Nat.pow_le_pow_right (by decide) ht)), Nat.mod_eq_of_lt hlt]

theorem ofNat_bitsValue_groupBits {f : Nat} {v : Byte} (hv : v.toNat < 2 ^ f) :
    BitVec.ofNat 8 (bitsValue (groupBits f v)) = v := by
  rw [bitsValue_groupBits, Nat.mod_eq_of_lt hv, BitVec.ofNat_toNat, BitVec.setWidth_eq]

/-! Concatenating groups and cutting groups undo each other (R33, R75). -/

theorem bitString_append (f : Nat) (a b : List Byte) :
    bitString f (a ++ b) = bitString f a ++ bitString f b := List.flatMap_append

@[simp] theorem cutGroups_length (t : Nat) (bits : List Bool) :
    (cutGroups t bits).length = bits.length / t := by
  simp [cutGroups]

/-- Cutting the concatenation of groups gives the groups back. -/
theorem cutGroups_bitString_append {f : Nat} (hf : 0 < f) {data : List Byte}
    (hdata : ∀ v ∈ data, v.toNat < 2 ^ f) (rest : List Bool) :
    cutGroups f (bitString f data ++ rest) = data ++ cutGroups f rest := by
  induction data with
  | nil => rfl
  | cons v data ih =>
    obtain ⟨hv, hdata⟩ := List.forall_mem_cons.mp hdata
    have hlen : (groupBits f v).length = f := groupBits_length f v
    rw [bitString_cons, List.append_assoc, cutGroups_of_le hf (by simp), List.take_left' hlen,
      List.drop_left' hlen, ofNat_bitsValue_groupBits hv, ih hdata, List.cons_append]

/-- Concatenating the groups cut from a string gives the string without what is left over. -/
theorem bitString_cutGroups_append {t : Nat} (ht : 0 < t) (ht8 : t ≤ 8) (bits : List Bool) :
    bitString t (cutGroups t bits) ++ leftoverBits t bits = bits := by
  by_cases h : t ≤ bits.length
  · rw [cutGroups_of_le ht h, leftoverBits_of_le ht h, bitString_cons, List.append_assoc,
      bitString_cutGroups_append ht ht8 (bits.drop t),
      groupBits_ofNat_bitsValue ht8 (List.length_take_of_le h), List.take_append_drop]
  · rw [cutGroups_of_lt (Nat.lt_of_not_le h), leftoverBits_of_lt (Nat.lt_of_not_le h), bitString_nil,
      List.nil_append]
termination_by bits.length
decreasing_by simp only [List.length_drop]; omega

theorem bitString_cutGroups {t : Nat} (ht : 0 < t) (ht8 : t ≤ 8) (bits : List Bool) :
    bitString t (cutGroups t bits) = bits.take (bits.length - bits.length % t) := by
  have hlen : (bitString t (cutGroups t bits)).length = bits.length - bits.length % t := by
    rw [bitString_length, cutGroups_length, ← Nat.sub_eq_of_eq_add' (Nat.mod_add_div _ t).symm]
  calc bitString t (cutGroups t bits)
      = (bitString t (cutGroups t bits) ++ leftoverBits t bits).take
          (bits.length - bits.length % t) := (List.take_left' hlen).symm
    _ = bits.take (bits.length - bits.length % t) := by rw [bitString_cutGroups_append ht ht8]

/-! The padding (R70). -/

theorem padding_length_lt {t : Nat} (ht : 0 < t) (bits : List Bool) : (padding t bits).length < t := by
  rw [padding, List.length_replicate]
  exact Nat.mod_lt _ ht

/-- The padding is the one number of zeros below `t` that completes the last group. -/
theorem padding_eq_replicate {t l : Nat} (hl : l < t) {bits : List Bool} (h : t ∣ bits.length + l) :
    padding t bits = List.replicate l false := by
  have hr : bits.length % t < t := Nat.mod_lt _ (by omega)
  obtain ⟨k, hk⟩ : t ∣ bits.length % t + l := by
    rwa [Nat.dvd_iff_mod_eq_zero, Nat.mod_add_mod, ← Nat.dvd_iff_mod_eq_zero]
  have hk2 : k < 2 := by
    by_contra hge
    have := Nat.mul_le_mul_left t (Nat.le_of_not_lt hge)
    omega
  have hcount : (t - bits.length % t) % t = l := by
    interval_cases k
    · obtain ⟨h0, rfl⟩ : bits.length % t = 0 ∧ l = 0 := by omega
      rw [h0, Nat.sub_zero, Nat.mod_self]
    · rw [show t - bits.length % t = l by omega, Nat.mod_eq_of_lt hl]
  rw [padding, hcount]

theorem dvd_length_append_padding {t : Nat} (ht : 0 < t) (bits : List Bool) :
    t ∣ (bits ++ padding t bits).length := by
  have hr : bits.length % t < t := Nat.mod_lt _ ht
  have hdiv := Nat.mod_add_div bits.length t
  rw [List.length_append, padding, List.length_replicate, Nat.dvd_iff_mod_eq_zero, Nat.add_mod_mod,
    show bits.length + (t - bits.length % t) = t + t * (bits.length / t) by omega, Nat.add_mod_left,
    Nat.mul_mod_right]

/-! A payload with the leftover bits of its last symbol cleared (R75). -/

theorem clearLastBits_concat (l : Nat) (data : List Byte) (v : Byte) :
    clearLastBits l (data ++ [v]) = data ++ [(v >>> l) <<< l] := by
  simp [clearLastBits, List.modify_eq_set]

theorem clearLow_toNat_le (l : Nat) (v : Byte) : ((v >>> l) <<< l).toNat ≤ v.toNat := by
  rw [BitVec.toNat_shiftLeft, BitVec.toNat_ushiftRight, Nat.shiftRight_eq_div_pow, Nat.shiftLeft_eq]
  exact (Nat.mod_le _ _).trans (Nat.div_mul_le_self _ _)

theorem getElem_groupBits {f k : Nat} (v : Byte) (h : k < (groupBits f v).length) :
    (groupBits f v)[k] = v.getLsbD (f - 1 - k) := by
  simp [groupBits]

theorem groupBits_clearLow {f l : Nat} (hl : l ≤ f) (hf : f ≤ 8) (v : Byte) :
    groupBits f ((v >>> l) <<< l) = (groupBits f v).take (f - l) ++ List.replicate l false := by
  apply List.ext_getElem
  · simp only [List.length_append, List.length_take, groupBits_length, List.length_replicate]
    omega
  · intro k hk _
    have hkf : k < f := by simpa using hk
    by_cases hlow : k < f - l
    · rw [List.getElem_append_left (by simpa using hlow), List.getElem_take,
        getElem_groupBits, getElem_groupBits, BitVec.getLsbD_shiftLeft, BitVec.getLsbD_ushiftRight,
        Nat.add_sub_cancel' (by omega)]
      simp only [show f - 1 - k < 8 by omega, show ¬ f - 1 - k < l by omega, decide_true,
        decide_false, Bool.not_false, Bool.true_and]
    · rw [List.getElem_append_right (by simpa [hkf.le] using hlow), List.getElem_replicate,
        getElem_groupBits, BitVec.getLsbD_shiftLeft]
      simp only [show f - 1 - k < l by omega, decide_true, Bool.not_true, Bool.and_false,
        Bool.false_and]

theorem lt_of_mem_clearLastBits {n l : Nat} {data : List Byte} (hdata : ∀ v ∈ data, v.toNat < n) :
    ∀ v ∈ clearLastBits l data, v.toNat < n := by
  rcases data.eq_nil_or_concat' with rfl | ⟨init, last, rfl⟩
  · exact hdata
  · rw [clearLastBits_concat]
    rw [List.forall_mem_append, List.forall_mem_singleton] at hdata ⊢
    exact ⟨hdata.1, (clearLow_toNat_le l last).trans_lt hdata.2⟩

theorem bitString_clearLastBits {f l : Nat} (hl : l ≤ f) (hf : f ≤ 8) {data : List Byte}
    (hlen : l ≤ f * data.length) :
    bitString f (clearLastBits l data) =
      (bitString f data).take (f * data.length - l) ++ List.replicate l false := by
  rcases data.eq_nil_or_concat' with rfl | ⟨init, last, rfl⟩
  · obtain rfl : l = 0 := by simpa using hlen
    rfl
  · have hcount : f * (init ++ [last]).length - l = (bitString f init).length + (f - l) := by
      rw [bitString_length, List.length_append, List.length_singleton, Nat.mul_succ]
      omega
    rw [clearLastBits_concat, bitString_append, bitString_append, hcount,
      List.take_length_add_append, List.append_assoc]
    simp [groupBits_clearLow hl hf]

/-! The two round trips, on streams (R75). -/

/-- From groups of `f` to padded groups of `t` and back: nothing is lost, for the padding is shorter than
a group of `f`. -/
theorem regroup_regroup_padded {f t : Nat} (ht : 0 < t) (ht8 : t ≤ 8) (htf : t ≤ f) {data : List Byte}
    (hdata : ∀ v ∈ data, v.toNat < 2 ^ f) : regroup t f false (regroup f t true data) = data := by
  have hwhole := Nat.mod_eq_zero_of_dvd (dvd_length_append_padding ht (bitString f data))
  have hbits : bitString t (regroup f t true data) =
      bitString f data ++ padding t (bitString f data) := by
    simp only [regroup, if_true, bitString_cutGroups ht ht8, hwhole, Nat.sub_zero, List.take_length]
  have hpad := (padding_length_lt ht (bitString f data)).trans_le htf
  rw [regroup, hbits]
  simp only [Bool.false_eq_true, if_false]
  rw [cutGroups_bitString_append (by omega) hdata, cutGroups_of_lt hpad, List.append_nil]

/-- From groups of `f` to groups of `t`, and back to padded groups of `f`: the bits that were left over
come back as zeros. -/
theorem regroup_padded_regroup {f t : Nat} (ht : 0 < t) (ht8 : t ≤ 8) (hf8 : f ≤ 8) {data : List Byte}
    (hdata : ∀ v ∈ data, v.toNat < 2 ^ f) (hl : f * data.length % t < f) :
    regroup t f true (regroup f t false data) = clearLastBits (f * data.length % t) data := by
  have hle : f * data.length % t ≤ f * data.length := Nat.mod_le _ _
  have hbits : bitString t (regroup f t false data) =
      (bitString f data).take (f * data.length - f * data.length % t) := by
    simp only [regroup, Bool.false_eq_true, if_false, bitString_cutGroups ht ht8, bitString_length]
  have hpad : padding f (bitString t (regroup f t false data)) =
      List.replicate (f * data.length % t) false := by
    refine padding_eq_replicate hl ?_
    rw [hbits, List.length_take_of_le (by rw [bitString_length]; exact Nat.sub_le _ _),
      Nat.sub_add_cancel hle]
    exact Nat.dvd_mul_right f data.length
  have hcleared := cutGroups_bitString_append (Nat.zero_lt_of_lt hl)
    (lt_of_mem_clearLastBits (l := f * data.length % t) hdata) []
  rw [List.append_nil, cutGroups_of_lt (bits := []) (Nat.zero_lt_of_lt hl), List.append_nil] at hcleared
  rw [regroup, if_pos rfl, hpad, hbits, ← bitString_clearLastBits hl.le hf8 hle, hcleared]

/-! The number of groups (R70). -/

theorem regroup_length_unpadded (f t : Nat) (data : List Byte) :
    (regroup f t false data).length = f * data.length / t := by
  simp [regroup]

/-- The padded groups hold the bits of the stream and the padding, and nothing else. -/
theorem mul_length_regroup_padded {f t : Nat} (ht : 0 < t) (data : List Byte) :
    t * (regroup f t true data).length = f * data.length + (padding t (bitString f data)).length := by
  rw [regroup, if_pos rfl, cutGroups_length, Nat.mul_div_cancel' (dvd_length_append_padding ht _),
    List.length_append, bitString_length]

theorem regroup_length_padded {f t : Nat} (ht : 0 < t) (data : List Byte) :
    (regroup f t true data).length = (f * data.length + (t - 1)) / t := by
  have hlen := mul_length_regroup_padded (f := f) ht data
  have hpad := padding_length_lt ht (bitString f data)
  refine (Nat.div_eq_of_lt_le ?_ ?_).symm
  · rw [Nat.mul_comm _ t, hlen]
    omega
  · rw [Nat.succ_mul, Nat.mul_comm _ t, hlen]
    omega

/-! What a command does, where no fault is reported and where one is (R171, R172). -/

theorem exec_of_no_fault {i : Instr} {s : State} (h : reportedFault i s.inp = none) :
    exec i s = .next (deliver (outputOf Config.constants i s.inp) s) := by
  rw [exec_eq_endTransaction, answerOf, h, deliver_eq]

theorem exec_of_fault {i : Instr} {s : State} {f : BlockFault}
    (h : reportedFault i s.inp = some f) : exec i s = .next (raise f s) := by
  rw [exec_eq_endTransaction, answerOf, h, raise_eq]

/-- A command that ends with `OK` emits the output of the reading. -/
theorem out_of_exec_ok {i : Instr} {s t : State} (hok : t.st = .ok) (h : exec i s = .next t) :
    t.out = outputOf Config.constants i s.inp := by
  cases hreport : reportedFault i s.inp with
  | none =>
    obtain rfl := Host.Outcome.next.inj ((exec_of_no_fault hreport).symm.trans h)
    rfl
  | some f =>
    obtain rfl := Host.Outcome.next.inj ((exec_of_fault hreport).symm.trans h)
    exact Status.noConfusion hok

theorem exec_cvt58 {s : State} (hsym : allSymbols s.inp) (hleft : 5 * s.inp.length % 8 < 5) :
    exec .cvt58 s = .next (deliver (regroup 5 8 false s.inp) s) :=
  exec_of_no_fault (by rw [reportedFault_cvt58, if_neg (not_not.mpr hsym), if_neg hleft.not_ge])

theorem exec_cvt85p (s : State) : exec .cvt85p s = .next (deliver (regroup 8 5 true s.inp) s) :=
  exec_of_no_fault (reportedFault_cvt85p s.inp)

/-! The statements. -/

/-- Settles O25: each clause is one branch of the fault that is reported for `CVT58`. -/
theorem cvt58RegroupsBits : Obligations.Cvt58RegroupsBits := by
  intro s
  have hreport := reportedFault_cvt58 s.inp
  refine ⟨rfl, fun hsym hleft => ⟨_, exec_cvt58 hsym hleft, rfl⟩, fun hsym => ?_, fun hsym hmod => ?_⟩
  · rw [if_pos hsym] at hreport
    exact ⟨_, exec_of_fault hreport, rfl⟩
  · rw [if_neg (not_not.mpr hsym), if_pos (by omega)] at hreport
    exact ⟨_, exec_of_fault hreport, rfl⟩

/-- Settles O26: `CVT58P` knows `ValueRange` alone, and the other two no fault. -/
theorem otherConversionsRegroupBits : Obligations.OtherConversionsRegroupBits := by
  intro s
  have hreport := reportedFault_rangeFaultOnly (i := .cvt58p) (.inl rfl) s.inp
  refine ⟨rfl, rfl, rfl, fun hsym => ?_, fun hsym => ?_,
    ⟨_, exec_of_no_fault (reportedFault_cvt85 s.inp), rfl⟩, ⟨_, exec_cvt85p s, rfl⟩⟩
  · rw [if_neg (not_not.mpr hsym)] at hreport
    exact ⟨_, exec_of_no_fault hreport, rfl⟩
  · rw [if_pos hsym] at hreport
    exact ⟨_, exec_of_fault hreport, rfl⟩

/-- Settles O29: the payload of `CVT85P` consists of symbols and leaves fewer than 5 bits over, its
padding, so `CVT58` takes it, and the regroupings undo each other. -/
theorem bytesSurviveRoundTrip : Obligations.BytesSurviveRoundTrip := by
  intro s
  refine ⟨regroup 8 5 true s.inp, exec_cvt85p s, fun s' hinp => ?_⟩
  have hsym : allSymbols s'.inp := fun v hv => lt_of_mem_regroup (hinp ▸ hv)
  have hleft : 5 * s'.inp.length % 8 < 5 := by
    have hpad := padding_length_lt (t := 5) (by decide) (bitString 8 s.inp)
    rw [hinp, mul_length_regroup_padded (by decide)]
    omega
  rw [exec_cvt58 hsym hleft, hinp,
    regroup_regroup_padded (by decide) (by decide) (by decide) (lt_two_pow_eight s.inp)]

/-- Settles O30: the zeros with which `CVT85P` pads stand where `CVT58` discarded the leftover. -/
theorem payloadRoundTripClearsLeftover : Obligations.PayloadRoundTripClearsLeftover := by
  intro s hsym hleft
  refine ⟨_, exec_cvt58 hsym hleft, fun s' hinp => ?_⟩
  rw [exec_cvt85p, hinp, regroup_padded_regroup (by decide) (by decide) (by decide) hsym hleft]

/-- Settles O27: the outputs are the regroupings, of the lengths above. -/
theorem conversionLengths : Obligations.ConversionLengths := by
  intro s t hok
  refine ⟨fun h => ?_, fun h => ?_, fun h => ?_, fun h => ?_⟩ <;> rw [out_of_exec_ok hok h]
  · exact regroup_length_unpadded 5 8 s.inp
  · exact regroup_length_padded (by decide) s.inp
  · exact regroup_length_unpadded 8 5 s.inp
  · exact regroup_length_padded (by decide) s.inp

end Sys2Proof.Machine

/-! The field commands (R86 to R88): the register loop as the rule's loop on integers, the table of
inverses, and what `GFMUL` and `GFINV` deliver or raise. -/

namespace Sys2Proof.Machine

/-! The register loop is the rule's repeated doubling on integers (R86). -/

theorem mulLoop_toNat (b : Sym) (l : List (Fin 5)) {ma : BitVec 6} (hma : ma.toNat < 32) (mr : Sym) :
    (mulLoop Config.constants b l ma mr).toNat =
      doublingLoop 41 b.toNat (l.map Fin.val) ma.toNat mr.toNat := by
  induction l generalizing ma mr with
  | nil => rfl
  | cons k rest ih =>
    obtain ⟨hlt, hdouble⟩ := reducedMAStaysInField ma hma
    have hadd : (mr ^^^ ma.setWidth 5).toNat = mr.toNat ^^^ ma.toNat := by
      rw [BitVec.toNat_xor, BitVec.toNat_setWidth, Nat.mod_eq_of_lt hma]
    rw [mulLoop_cons, ih hlt, hdouble, apply_ite BitVec.toNat, hadd]
    rfl

theorem gfmul_toNat_eq_repeatedDoubling (a b : Sym) :
    (gfmul Config.constants a b).toNat = repeatedDoubling 41 a.toNat b.toNat := by
  have hwide : (a.setWidth 6).toNat = a.toNat := BitVec.toNat_setWidth_of_le (by decide)
  have hlt : (a.setWidth 6).toNat < 32 := hwide ▸ a.isLt
  rw [gfmul, mulLoop_toNat b mulOrder hlt 0, hwide]
  rfl

theorem repeatedDoubling_two (reduce a : Nat) : repeatedDoubling reduce a 2 = doubleNat reduce a := by
  simp [repeatedDoubling, doublingLoop, Nat.testBit]

theorem map_doubleNat_range : (List.range 32).map (doubleNat 41) =
    [0, 2, 4, 6, 8, 10, 12, 14, 16, 18, 20, 22, 24, 26, 28, 30, 9, 11, 13, 15, 1, 3, 5, 7, 25, 27, 29,
      31, 17, 19, 21, 23] := by decide

/-! The inverses of a field (R12, R87, R88). -/

section Inverses

variable {c : Constants} (hc : FieldLaws c)
include hc

theorem FieldLaws.mul_one (a : Sym) : gfmul c a 1 = a := by
  rw [hc.comm, hc.one_mul]

theorem FieldLaws.mul_invTable {a : Sym} (ha : a ≠ 0) : gfmul c a (invTable c a) = 1 :=
  (hc.inverse_unique a _ ha).mpr rfl

theorem FieldLaws.invTable_one : invTable c 1 = 1 :=
  ((hc.inverse_unique 1 1 (by decide)).mp (hc.one_mul 1)).symm

theorem FieldLaws.invTable_ne_zero {a : Sym} (ha : a ≠ 0) : invTable c a ≠ 0 := by
  intro hzero
  have hone := hc.mul_invTable ha
  rw [hzero, gfmul_zero_right] at hone
  exact absurd hone (by decide)

theorem FieldLaws.invTable_invTable {a : Sym} (ha : a ≠ 0) : invTable c (invTable c a) = a := by
  refine ((hc.inverse_unique _ a (hc.invTable_ne_zero ha)).mp ?_).symm
  rw [hc.comm, hc.mul_invTable ha]

/-- In characteristic 2 a square root of 1 is 1: `a * a = 1` makes the square of `a ^^^ 1` zero. -/
theorem FieldLaws.eq_one_of_mul_self {a : Sym} (h : gfmul c a a = 1) : a = 1 := by
  have hsquare : gfmul c (a ^^^ 1) (a ^^^ 1) = 0 := by
    rw [gfmul_xor_left, hc.one_mul, gfmul_xor_right, h, hc.mul_one, BitVec.xor_comm 1 a,
      BitVec.xor_self]
    rfl
  have hzero : a ^^^ 1 = 0 := (hc.eq_zero _ _ hsquare).elim id id
  exact BitVec.xor_eq_zero_iff.mp hzero

/-- Of the non-zero elements only 1 is its own inverse (R88). -/
theorem FieldLaws.invTable_eq_self_iff {a : Sym} (ha : a ≠ 0) : invTable c a = a ↔ a = 1 := by
  constructor
  · intro hself
    exact hc.eq_one_of_mul_self ((hc.inverse_unique a a ha).mpr hself.symm)
  · rintro rfl
    exact hc.invTable_one

end Inverses

/-- Settles O32: the laws are `fieldLaws_constants`, where linearity reduces associativity to the powers
of x. -/
theorem constantsAreValid : Obligations.ConstantsAreValid where
  reduce_bit5 := rfl
  field := fieldLaws_constants
  inv_zero := rfl

/-! `GFMUL` and `GFINV` as commands. -/

theorem outputOf_gfmul_eq_repeatedDoubling (a b : Sym) (inp : List Byte) :
    outputOf Config.constants (.gfmul a b) inp =
      [BitVec.ofNat 8 (repeatedDoubling 41 a.toNat b.toNat)] := by
  rw [outputOf, ← gfmul_toNat, gfmul_toNat_eq_repeatedDoubling]

/-- Settles O31: the integer loop is the register loop, so its corner cases are those of the product. -/
theorem gfmulIsRepeatedDoubling : Obligations.GfmulIsRepeatedDoubling := by
  intro a b s
  have hreport := reportedFault_gfmul a b s.inp
  have hloop := gfmul_toNat_eq_repeatedDoubling
  refine ⟨rfl, fun hinp => ?_, fun hinp => ?_, hloop a b, hloop a b ▸ BitVec.isLt _, ?_, ?_, ?_, ?_,
    repeatedDoubling_two 41 a.toNat, map_doubleNat_range⟩
  · rw [if_neg (not_not.mpr hinp)] at hreport
    rw [exec_of_no_fault hreport, outputOf_gfmul_eq_repeatedDoubling]
    exact ⟨_, rfl, rfl⟩
  · rw [if_pos hinp] at hreport
    exact ⟨_, exec_of_fault hreport, rfl⟩
  · exact (hloop a 0).symm.trans (congrArg BitVec.toNat (gfmul_zero_right _ a))
  · exact (hloop 0 b).symm.trans (congrArg BitVec.toNat (gfmul_zero_left _ b))
  · exact (hloop a 1).symm.trans (congrArg BitVec.toNat (fieldLaws_constants.mul_one a))
  · exact (hloop 1 a).symm.trans (congrArg BitVec.toNat (fieldLaws_constants.one_mul a))

/-- Settles O35: the command's clauses are the branches of the fault that is reported for `GFINV`, the
table's are the laws of a field, and 0 is its own entry. -/
theorem gfinvReadsTheTable : Obligations.GfinvReadsTheTable := by
  intro a s
  have hlaws := fieldLaws_constants
  have hzero : invTable Config.constants 0 = 0 := constantsAreValid.inv_zero
  refine ⟨by simp [encode, wordOf],
    fun hinp ha => ⟨⟨_, exec_of_no_fault ?_, rfl⟩, hlaws.mul_invTable ha⟩,
    fun hinp => ⟨_, exec_of_fault ?_, rfl⟩, fun hinp => ⟨_, exec_of_fault ?_, rfl⟩, hzero,
    hlaws.invTable_one, ?_, ?_⟩
  · rw [reportedFault_gfinv, if_neg (not_not.mpr hinp), if_neg ha]
  · rw [reportedFault_gfinv, if_neg (not_not.mpr hinp), if_pos rfl]
  · rw [reportedFault_gfinv, if_pos hinp]
  · by_cases ha : a = 0
    · rw [ha, hzero, hzero]
    · exact hlaws.invTable_invTable ha
  · by_cases ha : a = 0
    · simp only [ha, hzero, true_or]
    · rw [hlaws.invTable_eq_self_iff ha, or_iff_right ha]

/-! The powers of 2 (R87). -/

theorem gfmul_two_toNat (a : Sym) : (gfmul Config.constants 2 a).toNat = doubleNat 41 a.toNat := by
  rw [fieldLaws_constants.comm, gfmul_toNat_eq_repeatedDoubling]
  exact repeatedDoubling_two 41 a.toNat

theorem iterate_gfmul_two_toNat (n : Nat) (a : Sym) :
    ((gfmul Config.constants 2)^[n] a).toNat = (doubleNat 41)^[n] a.toNat :=
  Function.Semiconj.iterate_right (f := BitVec.toNat) gfmul_two_toNat n a

/-- Settles O33: multiplication by 2 doubles, so the powers are the iterated doublings of 1. -/
theorem powersOfTwo : Obligations.PowersOfTwo := by
  unfold Obligations.PowersOfTwo
  simp only [iterate_gfmul_two_toNat]
  decide

end Sys2Proof.Machine

/-! The checksum commands (R101 to R106): what each delivers or raises, the residue as a linear function
of the register and the symbols, and what follows for a checksum and for a changed symbol. -/

namespace Sys2Proof.Machine

/-! The code by length (R103). -/

theorem contentCode_constants (n : Nat) :
    contentCode Config.constants n = if n ≤ 80 then .short else .long := rfl

theorem wholeCode_constants (n : Nat) :
    wholeCode Config.constants n = if n ≤ 93 then some .short else if 96 ≤ n then some .long else none :=
  rfl

/-- Settles O40: each clause compares a length with the thresholds; 80 + 13 = 93 and 81 + 15 = 96. -/
theorem codeByLength : Obligations.CodeByLength := by
  intro n
  simp only [contentCode_constants, wholeCode_constants]
  by_cases hcontent : n ≤ 80
  · have hwhole : n ≤ 93 := by omega
    have hsum : n + 13 ≤ 93 := by omega
    simp [hcontent, hwhole, ckSymbols, Config.ckS]
    omega
  · have hsum : ¬ n + 15 ≤ 93 ∧ 96 ≤ n + 15 := by omega
    simp [hcontent, hsum, ckSymbols, Config.ckL]
    split_ifs <;> simp <;> omega

/-! The commands whose one fault is `ValueRange` (R101, R102, R104, R105). -/

theorem exec_of_allSymbols {i : Instr} (hi : rangeFaultOnly i) {s : State} (hsym : allSymbols s.inp) :
    exec i s = .next (deliver (outputOf Config.constants i s.inp) s) :=
  exec_of_no_fault ((reportedFault_rangeFaultOnly hi s.inp).trans (if_neg (not_not.mpr hsym)))

theorem exec_of_not_allSymbols {i : Instr} (hi : rangeFaultOnly i) {s : State}
    (hsym : ¬ allSymbols s.inp) : exec i s = .next (raise .valueRange s) :=
  exec_of_fault ((reportedFault_rangeFaultOnly hi s.inp).trans (if_pos hsym))

theorem rangeFaultOnly_pmods : rangeFaultOnly .pmods := .inr (.inl rfl)

theorem rangeFaultOnly_pmodl : rangeFaultOnly .pmodl := .inr (.inr (.inl rfl))

theorem rangeFaultOnly_cksum : rangeFaultOnly .cksum := .inr (.inr (.inr (.inl rfl)))

theorem rangeFaultOnly_verify : rangeFaultOnly .verify := .inr (.inr (.inr (.inr rfl)))

theorem outputOf_cksum {c : Constants} {inp : List Byte} {code : Code}
    (hcode : contentCode c inp.length = code) :
    outputOf c .cksum inp = groupsNat code (polymodNat c code
      (inp.map BitVec.toNat ++ List.replicate (ckSymbols code) 0) ^^^ targetNat c code) := by
  rw [← hcode, outputOf]

theorem outputOf_verify {c : Constants} {inp : List Byte} {code : Code}
    (hcode : wholeCode c inp.length = some code) :
    outputOf c .verify inp =
      [if polymodNat c code (inp.map BitVec.toNat) = targetNat c code then 1 else 0] := by
  rw [outputOf, hcode, apply_ite (fun b : Byte => [b])]

theorem outputOf_verify_none {c : Constants} {inp : List Byte}
    (hcode : wholeCode c inp.length = none) : outputOf c .verify inp = [0] := by
  rw [outputOf, hcode]

/-- Settles O36: the reading's outputs are the groups of the residue, and the fault is `ValueRange`. -/
theorem pmodDeliversResidue : Obligations.PmodDeliversResidue := by
  intro s
  exact ⟨rfl, rfl, fun hsym => ⟨⟨_, exec_of_allSymbols rangeFaultOnly_pmods hsym, rfl⟩,
    ⟨_, exec_of_allSymbols rangeFaultOnly_pmodl hsym, rfl⟩⟩, fun hsym =>
    ⟨⟨_, exec_of_not_allSymbols rangeFaultOnly_pmods hsym, rfl⟩,
      ⟨_, exec_of_not_allSymbols rangeFaultOnly_pmodl hsym, rfl⟩⟩⟩

/-- Settles O41: the two clauses on symbols are the two codes that a content's length selects. -/
theorem cksumDeliversChecksum : Obligations.CksumDeliversChecksum := by
  intro s
  refine ⟨rfl, fun hsym hlen => ⟨_, exec_of_allSymbols rangeFaultOnly_cksum hsym, ?_⟩,
    fun hsym hlen => ⟨_, exec_of_allSymbols rangeFaultOnly_cksum hsym, ?_⟩,
    fun hsym => ⟨_, exec_of_not_allSymbols rangeFaultOnly_cksum hsym, rfl⟩⟩
  · rw [outputOf_cksum ((contentCode_constants _).trans (if_pos hlen))]
    rfl
  · rw [outputOf_cksum ((contentCode_constants _).trans (if_neg (Nat.not_le.mpr hlen)))]
    rfl

/-- Settles O42: the three clauses on symbols are the three answers of the choice by whole length. -/
theorem verifyComparesResidue : Obligations.VerifyComparesResidue := by
  intro s
  obtain ⟨-, hshort, hlong, hnone, -⟩ := codeByLength s.inp.length
  refine ⟨rfl, fun hsym hlen => ⟨_, exec_of_allSymbols rangeFaultOnly_verify hsym, ?_⟩,
    fun hsym hlen => ⟨_, exec_of_allSymbols rangeFaultOnly_verify hsym, ?_⟩,
    fun hsym hlen => ⟨_, exec_of_allSymbols rangeFaultOnly_verify hsym, ?_⟩,
    fun hsym => ⟨_, exec_of_not_allSymbols rangeFaultOnly_verify hsym, rfl⟩⟩
  · rw [outputOf_verify (hshort.mpr hlen)]
    rfl
  · rw [outputOf_verify (hlong.mpr hlen)]
    rfl
  · rw [outputOf_verify_none (hnone.mpr hlen)]
    rfl

/-! The register while nothing is shifted out of it (R100). -/

theorem topOf_toNat (code : Code) (res : BitVec 75) :
    (topOf code res).toNat = res.toNat / 2 ^ (regWidth code - 5) % 2 ^ 5 :=
  residueGroup_toNat code res 0

theorem topOf_eq_zero_iff {code : Code} {res : BitVec 75} (h : res.toNat < 2 ^ regWidth code) :
    topOf code res = 0 ↔ res.toNat < 2 ^ (regWidth code - 5) := by
  have hwidth : regWidth code = regWidth code - 5 + 5 := by cases code <;> rfl
  rw [hwidth, Nat.pow_add] at h
  rw [← BitVec.toNat_inj, topOf_toNat, Nat.mod_eq_of_lt (Nat.div_lt_of_lt_mul h), toNat_zero_sym,
    Nat.div_eq_zero_iff_lt (Nat.two_pow_pos _)]

/-- A step that shifts out 0 has no feedback (R101). -/
theorem residueStep_toNat_of_lt (c : Constants) {code : Code} {res : BitVec 75}
    (h : res.toNat < 2 ^ (regWidth code - 5)) (s : Sym) :
    (residueStep c code res s).toNat = res.toNat * 32 + s.toNat := by
  have htop : topOf code res = 0 :=
    (topOf_eq_zero_iff (Nat.lt_of_lt_of_le h (Nat.pow_le_pow_right (by decide) (Nat.sub_le ..)))).mpr h
  rw [residueStep, htop, feedback_zero, BitVec.ofNat_eq_ofNat, BitVec.xor_zero, shifted_toNat,
    Nat.mod_eq_of_lt h]

/-- The number whose digits to base 32 are those of `v` followed by the symbols (R101). -/
def followedBy (v : Nat) (syms : List Sym) : Nat := syms.foldl (fun v s => v * 32 + s.toNat) v

theorem followedBy_concat (v : Nat) (syms : List Sym) (s : Sym) :
    followedBy v (syms ++ [s]) = followedBy v syms * 32 + s.toNat := by
  rw [followedBy, List.foldl_append]
  rfl

/-- As long as value and symbols fit in the register together, its steps append the symbols. -/
theorem foldl_residueStep_toNat (c : Constants) {code : Code} {b : Nat} (syms : List Sym)
    {res : BitVec 75} (hres : res.toNat < 2 ^ b) (hfit : b + 5 * syms.length ≤ regWidth code) :
    (syms.foldl (residueStep c code) res).toNat = followedBy res.toNat syms := by
  induction syms generalizing res b with
  | nil => rfl
  | cons s rest ih =>
    rw [List.length_cons] at hfit
    have hlow : res.toNat < 2 ^ (regWidth code - 5) :=
      Nat.lt_of_lt_of_le hres (Nat.pow_le_pow_right (by decide) (by omega))
    have hstep := residueStep_toNat_of_lt c hlow s
    have hnext : (residueStep c code res s).toNat < 2 ^ (b + 5) := by
      have hs := s.isLt
      rw [hstep, Nat.pow_add]
      omega
    rw [List.foldl_cons, ih hnext (by omega), hstep]
    rfl

/-- Settles O38: `INIT` has 26 bits, and 26 + 5·7 ≤ 65 and 26 + 5·9 ≤ 75. -/
theorem noFeedbackInFirstSteps : Obligations.NoFeedbackInFirstSteps := by
  intro code syms w hlen
  have hinit : (Config.constants.init.setWidth 75).toNat = 0x23181b3 := by decide
  have hfit : 26 + 5 * syms.length ≤ regWidth code := by
    cases code <;> simp only [regWidth, ckSymbols, Config.ckS, Config.ckL] at hlen ⊢ <;> omega
  rw [polymod_res, residue, foldl_residueStep_toNat _ syms (b := 26) (by rw [hinit]; decide) hfit, hinit]
  rfl

/-- The first `n` groups of a value that fits in the register are its bits above the others (R34). -/
theorem followedBy_first_groups {code : Code} {x : BitVec 75} (hx : x.toNat < 2 ^ regWidth code)
    {n : Nat} (hn : n ≤ ckSymbols code) :
    followedBy 0 ((List.range n).map (residueGroup code x)) =
      x.toNat / 2 ^ (regWidth code - 5 * n) := by
  induction n with
  | zero => exact (Nat.div_eq_of_lt hx).symm
  | succ n ih =>
    have hwidth : regWidth code - 5 * n = regWidth code - 5 * (n + 1) + 5 := by
      rw [regWidth]
      omega
    have hgroup : regWidth code - 5 - 5 * n = regWidth code - 5 * (n + 1) := by omega
    rw [List.range_succ, List.map_append, List.map_singleton, followedBy_concat,
      ih (Nat.le_of_succ_le hn), residueGroup_toNat, hwidth, hgroup, Nat.pow_add,
      ← Nat.div_div_eq_div_mul]
    omega

theorem followedBy_residueGroups {code : Code} {x : BitVec 75} (hx : x.toNat < 2 ^ regWidth code) :
    followedBy 0 (residueGroups code x) = x.toNat := by
  rw [residueGroups, followedBy_first_groups hx (Nat.le_refl _), regWidth, Nat.sub_self, Nat.pow_zero,
    Nat.div_one]

/-- From an empty register, the groups of a value lead to that value. -/
theorem foldl_residueStep_residueGroups (c : Constants) {code : Code} {x : BitVec 75}
    (hx : x.toNat < 2 ^ regWidth code) : (residueGroups code x).foldl (residueStep c code) 0 = x := by
  apply BitVec.eq_of_toNat_eq
  rw [foldl_residueStep_toNat c (b := 0) _ (by decide) (by simp [regWidth])]
  exact followedBy_residueGroups hx

/-! The step is linear in the register and the symbol (R100). -/

theorem shifted_xor (code : Code) (a b : BitVec 75) (s t : Sym) :
    shifted code (a ^^^ b) (s ^^^ t) = shifted code a s ^^^ shifted code b t := by
  apply BitVec.eq_of_getLsbD_eq
  intro i hi
  simp only [shifted, BitVec.getLsbD_or, BitVec.getLsbD_xor, BitVec.getLsbD_shiftLeft,
    BitVec.getLsbD_and, BitVec.getLsbD_setWidth, hi]
  by_cases hlow : i < 5
  · simp [hlow]
  · have habove : ∀ u : Sym, u.getLsbD i = false := fun u => BitVec.getLsbD_of_ge u i (by omega)
    simp [hlow, habove, Bool.and_xor_distrib_right]

theorem topOf_xor (code : Code) (a b : BitVec 75) :
    topOf code (a ^^^ b) = topOf code a ^^^ topOf code b :=
  residueGroup_xor code a b 0

theorem residueStep_xor (c : Constants) (code : Code) (a b : BitVec 75) (s t : Sym) :
    residueStep c code (a ^^^ b) (s ^^^ t) = residueStep c code a s ^^^ residueStep c code b t := by
  simp only [residueStep, shifted_xor, topOf_xor, feedback_xor]
  ac_rfl

/-- What symbols add to a register: the same steps with zeros in their place, and the symbols' own
steps from an empty register. -/
theorem foldl_residueStep_eq_xor (c : Constants) (code : Code) (syms : List Sym) (a b : BitVec 75) :
    syms.foldl (residueStep c code) (a ^^^ b) =
      (List.replicate syms.length 0).foldl (residueStep c code) a ^^^
        syms.foldl (residueStep c code) b := by
  induction syms generalizing a b with
  | nil => rfl
  | cons s rest ih =>
    rw [List.foldl_cons, List.foldl_cons, List.length_cons, List.replicate_succ, List.foldl_cons, ← ih,
      ← residueStep_xor, BitVec.ofNat_eq_ofNat, BitVec.zero_xor]

/-! A content followed by its checksum (R104, R106). -/

theorem target_lt (c : Constants) (code : Code) : (target c code).toNat < 2 ^ regWidth code := by
  rw [← targetNat_eq]
  cases code with
  | short => exact c.targetS.isLt
  | long => exact c.targetL.isLt

/-- The checksum of a content as a register value (R104). -/
def checksum (c : Constants) (code : Code) (content : List Sym) : BitVec 75 :=
  residue c code (content ++ List.replicate (ckSymbols code) 0) ^^^ target c code

theorem checksum_lt (c : Constants) (code : Code) (content : List Sym) :
    (checksum c code content).toNat < 2 ^ regWidth code := by
  rw [checksum, BitVec.toNat_xor]
  exact Nat.xor_lt_two_pow (residue_lt c code _) (target_lt c code)

/-- The checksum's groups in place of the zeros add the checksum to the residue, and leave the target
(R106). -/
theorem residue_append_checksum (c : Constants) (code : Code) (content : List Sym) :
    residue c code (content ++ residueGroups code (checksum c code content)) = target c code := by
  have hxor : residue c code content ^^^ 0 = residue c code content := BitVec.xor_zero
  calc residue c code (content ++ residueGroups code (checksum c code content))
    _ = (residueGroups code (checksum c code content)).foldl (residueStep c code)
          (residue c code content ^^^ 0) := by rw [hxor, residue, List.foldl_append, ← residue]
    _ = residue c code (content ++ List.replicate (ckSymbols code) 0) ^^^ checksum c code content := by
      rw [foldl_residueStep_eq_xor, residueGroups_length,
        foldl_residueStep_residueGroups c (checksum_lt c code content), residue, residue,
        List.foldl_append]
    _ = target c code := by
      rw [checksum, ← BitVec.xor_assoc, BitVec.xor_self, BitVec.zero_xor]

theorem allSymbols_map_symToByte (syms : List Sym) : allSymbols (syms.map symToByte) :=
  fun _ hv => lt_of_mem_map_symToByte hv

theorem map_byteToSym_map_symToByte (syms : List Sym) : (syms.map symToByte).map byteToSym = syms := by
  rw [List.map_map]
  exact List.map_id'' byteToSym_symToByte syms

/-- `CKSUM` delivers the groups of the checksum (R104). -/
theorem exec_cksum {s : State} (hsym : allSymbols s.inp) {code : Code}
    (hcode : contentCode Config.constants s.inp.length = code) :
    exec .cksum s = .next (deliver ((residueGroups code
      (checksum Config.constants code (s.inp.map byteToSym))).map symToByte) s) := by
  have hzeros : List.replicate (ckSymbols code) 0 =
      (List.replicate (ckSymbols code) (0 : Sym)).map BitVec.toNat := by simp
  rw [exec_of_allSymbols rangeFaultOnly_cksum hsym, outputOf_cksum hcode, ← map_toNat_byteToSym hsym,
    hzeros, ← List.map_append, ← residue_toNat, targetNat_eq, ← BitVec.toNat_xor, groupsNat_toNat,
    checksum]

/-- `VERIFY` compares the residue in the register with the target (R105). -/
theorem exec_verify {s : State} (hsym : allSymbols s.inp) {code : Code}
    (hcode : wholeCode Config.constants s.inp.length = some code) :
    exec .verify s = .next (deliver [if residue Config.constants code (s.inp.map byteToSym) =
      target Config.constants code then 1 else 0] s) := by
  simp only [exec_of_allSymbols rangeFaultOnly_verify hsym, outputOf_verify hcode,
    ← map_toNat_byteToSym hsym, ← residue_toNat, targetNat_eq, BitVec.toNat_inj]

/-- Settles O43: the content with its checksum is judged by the code that made it (R103), under which its
residue is the target. -/
theorem checksummedContentVerifies : Obligations.ChecksummedContentVerifies := by
  intro s hsym
  refine ⟨_, exec_cksum hsym rfl, fun s' hinp => ?_⟩
  obtain ⟨-, -, -, -, hwhole⟩ := codeByLength s.inp.length
  have hsym' : allSymbols s'.inp := by
    rw [hinp]
    exact List.forall_mem_append.mpr ⟨hsym, allSymbols_map_symToByte _⟩
  have hlen : s'.inp.length =
      s.inp.length + ckSymbols (contentCode Config.constants s.inp.length) := by simp [hinp]
  rw [exec_verify hsym' (hlen ▸ hwhole), hinp, List.map_append, map_byteToSym_map_symToByte,
    residue_append_checksum, if_pos rfl]

/-! One symbol changed (C7, R106). -/

theorem residueStep_symbol_injective {c : Constants} {code : Code} {res : BitVec 75} {s t : Sym}
    (h : residueStep c code res s = residueStep c code res t) : s = t := by
  have hshift : shifted code res s = shifted code res t := by
    simpa only [residueStep, BitVec.xor_left_inj] using h
  rw [← residueGroup_shifted_last code res s, hshift, residueGroup_shifted_last]

/-- The last group of `GEN[0]` is not 0, so the feedback can be read off the last group (R13, R14). -/
theorem last_group_generator_ne_zero (code : Code) :
    residueGroup code (generator Config.constants code 0) (ckSymbols code - 1) ≠ 0 := by
  cases code <;> decide

/-- Only an empty register is empty after a step with 0. -/
theorem eq_zero_of_residueStep_eq_zero {code : Code} {x : BitVec 75} (hx : x.toNat < 2 ^ regWidth code)
    (h : residueStep Config.constants code x 0 = 0) : x = 0 := by
  have hlast : ckSymbols code - 1 < ckSymbols code := by cases code <;> decide
  have hgroup : gfmul Config.constants (topOf code x)
      (residueGroup code (generator Config.constants code 0) (ckSymbols code - 1)) = 0 := by
    have hzero : residueGroup code 0 (ckSymbols code - 1) = 0 := by simp [residueGroup]
    rwa [← h, residueStep, residueGroup_xor, residueGroup_shifted_last, residueGroup_feedback code _ hlast,
      BitVec.ofNat_eq_ofNat, BitVec.zero_xor] at hzero
  have htop : topOf code x = 0 :=
    (fieldLaws_constants.eq_zero _ _ hgroup).resolve_right (last_group_generator_ne_zero code)
  have hlow : (residueStep Config.constants code x 0).toNat = x.toNat * 32 :=
     residueStep_toNat_of_lt _ ((topOf_eq_zero_iff hx).mp htop) 0
  rw [h] at hlow
  apply BitVec.eq_of_toNat_eq
  simpa using hlow.symm

theorem residueStep_injective {code : Code} {a b : BitVec 75} {s : Sym}
    (ha : a.toNat < 2 ^ regWidth code) (hb : b.toNat < 2 ^ regWidth code)
    (h : residueStep Config.constants code a s = residueStep Config.constants code b s) : a = b := by
  have hdiff : residueStep Config.constants code (a ^^^ b) 0 = 0 := by
    have hsym : (0 : Sym) = s ^^^ s := BitVec.xor_self.symm
    rw [hsym, residueStep_xor, h, BitVec.xor_self]
    rfl
  have hlt : (a ^^^ b).toNat < 2 ^ regWidth code := by
    rw [BitVec.toNat_xor]
    exact Nat.xor_lt_two_pow ha hb
  exact BitVec.xor_eq_zero_iff.mp (eq_zero_of_residueStep_eq_zero hlt hdiff)

theorem foldl_residueStep_injective {code : Code} (syms : List Sym) {a b : BitVec 75}
    (ha : a.toNat < 2 ^ regWidth code) (hb : b.toNat < 2 ^ regWidth code)
    (h : syms.foldl (residueStep Config.constants code) a =
      syms.foldl (residueStep Config.constants code) b) : a = b := by
  induction syms generalizing a b with
  | nil => exact h
  | cons s rest ih =>
    exact residueStep_injective ha hb (ih (residueStep_lt _ code a s) (residueStep_lt _ code b s) h)

/-- The residue determines each symbol by the others. -/
theorem residue_symbol_injective {code : Code} {before after : List Sym} {s t : Sym}
    (h : residue Config.constants code (before ++ s :: after) =
      residue Config.constants code (before ++ t :: after)) : s = t := by
  simp only [residue, List.foldl_append, List.foldl_cons] at h
  exact residueStep_symbol_injective
    (foldl_residueStep_injective after (residueStep_lt _ code _ s) (residueStep_lt _ code _ t) h)

theorem residue_set_ne {code : Code} {inp : List Byte} {p : Nat} {v : Byte} (hsym : allSymbols inp)
    (hp : p < inp.length) (hv : v.toNat < 32) (hne : inp[p]? ≠ some v) :
    residue Config.constants code ((inp.set p v).map byteToSym) ≠
      residue Config.constants code (inp.map byteToSym) := by
  intro h
  have hsplit : inp = inp.take p ++ inp[p] :: inp.drop (p + 1) := by simp
  rw [List.set_eq_take_append_cons_drop, if_pos hp] at h
  conv_rhs at h => rw [hsplit]
  simp only [List.map_append, List.map_cons] at h
  have heq := congrArg symToByte (residue_symbol_injective h)
  rw [symToByte_byteToSym hv, symToByte_byteToSym (hsym _ (List.getElem_mem hp))] at heq
  exact hne (heq ▸ List.getElem?_eq_getElem hp)

/-- `VERIFY` answers 1 on nothing but symbols whose residue is the target of their code. -/
theorem residue_eq_target_of_exec_verify {s : State} (h : exec .verify s = .next (deliver [1] s)) :
    allSymbols s.inp ∧ ∃ code, wholeCode Config.constants s.inp.length = some code ∧
      residue Config.constants code (s.inp.map byteToSym) = target Config.constants code := by
  by_cases hsym : allSymbols s.inp
  · have hout := out_of_exec_ok rfl h
    cases hcode : wholeCode Config.constants s.inp.length with
    | none =>
      rw [outputOf_verify_none hcode] at hout
      exact absurd hout (by simp)
    | some code =>
      refine ⟨hsym, code, rfl, ?_⟩
      rw [exec_verify hsym hcode] at h
      by_contra hne
      rw [if_neg hne] at h
      exact absurd (congrArg State.out (Host.Outcome.next.inj h)) (by simp)
  · rw [exec_of_not_allSymbols rangeFaultOnly_verify hsym] at h
    exact absurd (congrArg State.st (Host.Outcome.next.inj h)) (by simp)

/-- Settles O44: the changed sequence has symbols, the length and so the code of the first, and another
residue. -/
theorem singleSymbolChangeDetected : Obligations.SingleSymbolChangeDetected := by
  intro s s' p v hverify hp hv hne hinp
  obtain ⟨hsym, code, hcode, htarget⟩ := residue_eq_target_of_exec_verify hverify
  have hsym' : allSymbols s'.inp := by
    rw [hinp]
    intro u hu
    rcases List.mem_or_eq_of_mem_set hu with hu | rfl
    · exact hsym u hu
    · exact hv
  have hcode' : wholeCode Config.constants s'.inp.length = some code := by
    rwa [hinp, List.length_set]
  rw [exec_verify hsym' hcode', hinp, if_neg (htarget ▸ residue_set_ne hsym hp hv hne)]

end Sys2Proof.Machine

/-! Lagrange interpolation over the field of any valid constants (R121, R123): weights taken by value, so
that the order of the points does not matter, and the values of a polynomial of low degree give its value
at the target. -/

namespace Sys2Proof.Machine

/-! Exclusive-or sums. -/

theorem xorAll_cons (y : Sym) (ys : List Sym) : xorAll (y :: ys) = y ^^^ xorAll ys := by
  simp only [xorAll, List.foldl_eq_foldr, List.foldr_cons]

theorem xorAll_perm {ys zs : List Sym} (h : ys.Perm zs) : xorAll ys = xorAll zs := by
  simpa only [xorAll, List.foldl_eq_foldr] using h.foldr_eq (f := (· ^^^ ·)) 0

theorem xorAll_map_xor {α : Type} (f g : α → Sym) (l : List α) :
    xorAll (l.map fun a => f a ^^^ g a) = xorAll (l.map f) ^^^ xorAll (l.map g) := by
  induction l with
  | nil => exact (BitVec.xor_self (x := (0 : Sym))).symm
  | cons a rest ih =>
    simp only [List.map_cons, xorAll_cons, ih]
    ac_rfl

theorem xorAll_map_gfmul_left {α : Type} (c : Constants) (d : Sym) (f : α → Sym) (l : List α) :
    xorAll (l.map fun a => gfmul c d (f a)) = gfmul c d (xorAll (l.map f)) := by
  induction l with
  | nil => exact (gfmul_zero_right c d).symm
  | cons a rest ih => simp only [List.map_cons, xorAll_cons, ih, gfmul_xor_right]

/-- `BitVec.xor_zero`, with 0 written as in the model. -/
theorem xor_zero_sym (a : Sym) : a ^^^ 0 = a := BitVec.xor_zero

theorem xor_cancel_right (p q d : Sym) : (p ^^^ d) ^^^ (q ^^^ d) = p ^^^ q := by
  rw [BitVec.xor_comm q d, BitVec.xor_assoc, ← BitVec.xor_assoc d, BitVec.xor_self, BitVec.zero_xor]

theorem xor_ne_zero {a b : Sym} (h : a ≠ b) : a ^^^ b ≠ 0 := fun hzero =>
  h (BitVec.xor_eq_zero_iff.mp hzero)

/-! The weight of a point, by its value (R121). -/

/-- The weight of the point `y` among the points `xs`: the closed form, the point named by its value. -/
def weightOf (c : Constants) (x : Sym) (xs : List Sym) (y : Sym) : Sym :=
  gfmul c (productOf c ((xs.erase y).map (x ^^^ ·)))
    (invTable c (productOf c ((xs.erase y).map (y ^^^ ·))))

theorem lagrangeWeights_eq_map_weightOf (c : Constants) (x : Sym) {xs : List Sym} (hnd : xs.Nodup) :
    lagrangeWeights c x xs = xs.map (weightOf c x xs) := by
  rw [lagrangeWeights, ← map_range_getD]
  refine List.map_congr_left fun i hi => ?_
  have hi : i < xs.length := List.mem_range.mp hi
  have herase : xs.erase (xs.getD i 0) = xs.eraseIdx i := by
    rw [List.getD_eq_getElem _ _ hi, hnd.erase_getElem]
  rw [lagrangeWeight, numerator, denominator, weightOf, herase]

/-- The sum of the values `f` at the points, each times its point's weight (R123). -/
def interpolate (c : Constants) (x : Sym) (xs : List Sym) (f : Sym → Sym) : Sym :=
  xorAll (xs.map fun y => gfmul c (weightOf c x xs y) (f y))

theorem interpolate_xor (c : Constants) (x : Sym) (xs : List Sym) (f g : Sym → Sym) :
    interpolate c x xs (fun y => f y ^^^ g y) = interpolate c x xs f ^^^ interpolate c x xs g := by
  simp only [interpolate, gfmul_xor_right, xorAll_map_xor]

theorem polynomialAt_cons (c : Constants) (a₀ : Sym) (coeffs : List Sym) (y : Sym) :
    polynomialAt c (a₀ :: coeffs) y = a₀ ^^^ gfmul c y (polynomialAt c coeffs y) := rfl

theorem polynomialAt_nil (c : Constants) (y : Sym) : polynomialAt c [] y = 0 := rfl

theorem polynomialAt_singleton (c : Constants) (v y : Sym) : polynomialAt c [v] y = v := by
  rw [polynomialAt_cons, polynomialAt_nil, gfmul_zero_right, xor_zero_sym]

section Interpolation

variable {c : Constants} (hc : FieldLaws c)
include hc

theorem FieldLaws.left_comm (a b d : Sym) :
    gfmul c a (gfmul c b d) = gfmul c b (gfmul c a d) := by
  rw [← hc.assoc, hc.comm a, hc.assoc]

theorem FieldLaws.weightOf_perm {xs ys : List Sym} (h : xs.Perm ys) (x : Sym) :
    weightOf c x xs = weightOf c x ys := by
  funext y
  rw [weightOf, weightOf, hc.productOf_perm ((h.erase y).map _),
    hc.productOf_perm ((h.erase y).map (y ^^^ ·))]

theorem FieldLaws.interpolate_perm {xs ys : List Sym} (h : xs.Perm ys) (x : Sym) (f : Sym → Sym) :
    interpolate c x xs f = interpolate c x ys f := by
  rw [interpolate, interpolate, hc.weightOf_perm h x]
  exact xorAll_perm (h.map _)

theorem FieldLaws.productOf_differences_ne_zero {xs : List Sym} {y : Sym} (h : y ∉ xs) :
    productOf c (xs.map (y ^^^ ·)) ≠ 0 := by
  refine hc.productOf_ne_zero fun d hd => ?_
  obtain ⟨z, hz, rfl⟩ := List.mem_map.mp hd
  exact xor_ne_zero fun hyz => h (hyz ▸ hz)

/-- A further point `a` multiplies the weight of `y` by `(x ^^^ a) / (y ^^^ a)`. -/
theorem FieldLaws.weightOf_cons {a y : Sym} {rest : List Sym} (hnd : (a :: rest).Nodup)
    (hy : y ∈ rest) (x : Sym) :
    gfmul c (weightOf c x (a :: rest) y) (y ^^^ a) =
      gfmul c (x ^^^ a) (weightOf c x rest y) := by
  obtain ⟨ha, hrest⟩ := List.nodup_cons.mp hnd
  have hay : a ≠ y := fun h => ha (h ▸ hy)
  have hd : y ^^^ a ≠ 0 := xor_ne_zero hay.symm
  have hden : productOf c ((rest.erase y).map (y ^^^ ·)) ≠ 0 :=
    hc.productOf_differences_ne_zero hrest.not_mem_erase
  have herase : (a :: rest).erase y = a :: rest.erase y := List.erase_cons_tail (by simpa using hay)
  rw [weightOf, weightOf, herase, List.map_cons, List.map_cons, hc.productOf_cons, hc.productOf_cons,
    hc.right_comm, hc.comm _ (y ^^^ a), hc.cancel_factor _ hd hden, hc.assoc]

/-- Values with the factor `y ^^^ a` are interpolated at the other points, and the factor is put back. -/
theorem FieldLaws.interpolate_cons_linear_mul {a : Sym} {rest : List Sym} (hnd : (a :: rest).Nodup)
    (x : Sym) (g : Sym → Sym) :
    interpolate c x (a :: rest) (fun y => gfmul c (y ^^^ a) (g y)) =
      gfmul c (x ^^^ a) (interpolate c x rest g) := by
  have hfirst : gfmul c (weightOf c x (a :: rest) a) (gfmul c (a ^^^ a) (g a)) = 0 := by
    have hzero : a ^^^ a = 0 := BitVec.xor_self
    rw [hzero, gfmul_zero_left, gfmul_zero_right]
  have hothers : ∀ y ∈ rest,
      gfmul c (weightOf c x (a :: rest) y) (gfmul c (y ^^^ a) (g y)) =
        gfmul c (x ^^^ a) (gfmul c (weightOf c x rest y) (g y)) := by
    intro y hy
    rw [← hc.assoc, hc.weightOf_cons hnd hy, hc.assoc]
  rw [interpolate, List.map_cons, xorAll_cons, hfirst, List.map_congr_left hothers,
    xorAll_map_gfmul_left, interpolate, BitVec.ofNat_eq_ofNat, BitVec.zero_xor]

theorem FieldLaws.interpolate_const (x : Sym) (xs : List Sym) (v : Sym) :
    interpolate c x xs (fun _ => v) = gfmul c v (interpolate c x xs fun _ => 1) := by
  simp only [interpolate, hc.mul_one, hc.comm _ v]
  exact xorAll_map_gfmul_left c v _ xs

/-- The weights add up to 1 (R121). With two points `a` and `b`, the values `y ^^^ a` and `y ^^^ b` are
interpolated to `x ^^^ a` and `x ^^^ b`; their sum is the constant `a ^^^ b` on both sides. -/
theorem FieldLaws.interpolate_one {a : Sym} {rest : List Sym} (hnd : (a :: rest).Nodup) (x : Sym) :
    interpolate c x (a :: rest) (fun _ => 1) = 1 := by
  induction rest generalizing a with
  | nil =>
    have hempty : productOf c [] = 1 := rfl
    simp only [interpolate, weightOf, List.map_cons, List.map_nil, List.erase_cons_head, hempty,
      hc.invTable_one, hc.one_mul]
    rfl
  | cons b rest ih =>
    have hswap : (a :: b :: rest).Perm (b :: a :: rest) := List.Perm.swap b a rest
    have hnd' : (b :: a :: rest).Nodup := hswap.nodup hnd
    have ha : interpolate c x (a :: b :: rest) (fun y => y ^^^ a) = x ^^^ a := by
      simpa only [hc.mul_one, ih (List.nodup_cons.mp hnd).2] using
        hc.interpolate_cons_linear_mul hnd x fun _ => 1
    have hb : interpolate c x (a :: b :: rest) (fun y => y ^^^ b) = x ^^^ b := by
      rw [hc.interpolate_perm hswap]
      simpa only [hc.mul_one, ih (List.nodup_cons.mp hnd').2] using
        hc.interpolate_cons_linear_mul hnd' x fun _ => 1
    have hcancel : ∀ y : Sym, (y ^^^ a) ^^^ (y ^^^ b) = a ^^^ b := fun y => by
      rw [BitVec.xor_comm y a, BitVec.xor_comm y b, xor_cancel_right]
    have hsum : gfmul c (a ^^^ b) (interpolate c x (a :: b :: rest) fun _ => 1) = a ^^^ b := by
      rw [← hc.interpolate_const]
      simpa only [hcancel, ha, hb] using
        interpolate_xor c x (a :: b :: rest) (fun y => y ^^^ a) (fun y => y ^^^ b)
    have hab : a ^^^ b ≠ 0 := xor_ne_zero fun h => (List.nodup_cons.mp hnd).1 (by simp [h])
    have hzero : gfmul c (a ^^^ b) ((interpolate c x (a :: b :: rest) fun _ => 1) ^^^ 1) = 0 := by
      rw [gfmul_xor_right, hsum, hc.mul_one, BitVec.xor_self]
      rfl
    exact BitVec.xor_eq_zero_iff.mp ((hc.eq_zero _ _ hzero).resolve_left hab)

/-- Division of a polynomial by `X ^^^ a`: the remainder is its value at `a`, the quotient has one
coefficient less. -/
theorem FieldLaws.polynomialAt_cons_eq (a a₀ : Sym) (coeffs : List Sym) :
    ∃ q : List Sym, q.length = coeffs.length ∧ ∀ y, polynomialAt c (a₀ :: coeffs) y =
      polynomialAt c (a₀ :: coeffs) a ^^^ gfmul c (y ^^^ a) (polynomialAt c q y) := by
  induction coeffs generalizing a₀ with
  | nil =>
    refine ⟨[], rfl, fun y => ?_⟩
    rw [polynomialAt_singleton, polynomialAt_singleton, polynomialAt_nil, gfmul_zero_right,
      xor_zero_sym]
  | cons b rest ih =>
    obtain ⟨q, hlen, hq⟩ := ih b
    refine ⟨polynomialAt c (b :: rest) a :: q, by simp [hlen], fun y => ?_⟩
    have hvalue : gfmul c y (polynomialAt c (b :: rest) y) =
        gfmul c y (polynomialAt c (b :: rest) a) ^^^
          gfmul c (y ^^^ a) (gfmul c y (polynomialAt c q y)) := by
      rw [hq y, gfmul_xor_right, hc.left_comm y]
    rw [polynomialAt_cons c a₀ _ y, polynomialAt_cons c a₀ _ a, polynomialAt_cons c _ q y, hvalue,
      gfmul_xor_right c (y ^^^ a), gfmul_xor_left c y a (polynomialAt c (b :: rest) a),
      ← xor_cancel_right a₀ _ (gfmul c a (polynomialAt c (b :: rest) a))]
    ac_rfl

/-- Values of a polynomial with no more coefficients than there are points are interpolated to its value
(R123). -/
theorem FieldLaws.interpolate_polynomialAt {xs : List Sym} (hnd : xs.Nodup) (x : Sym)
    {coeffs : List Sym} (hlen : coeffs.length ≤ xs.length) :
    interpolate c x xs (polynomialAt c coeffs) = polynomialAt c coeffs x := by
  induction xs generalizing coeffs with
  | nil => rw [List.length_eq_zero_iff.mp (Nat.le_zero.mp hlen)]; rfl
  | cons a rest ih =>
    cases coeffs with
    | nil => exact (hc.interpolate_const x _ 0).trans (gfmul_zero_left c _)
    | cons a₀ coeffs =>
      obtain ⟨q, hqlen, hq⟩ := hc.polynomialAt_cons_eq a a₀ coeffs
      have hquotient : interpolate c x rest (polynomialAt c q) = polynomialAt c q x :=
        ih (List.nodup_cons.mp hnd).2 (by simpa [hqlen] using hlen)
      rw [funext hq, interpolate_xor, hc.interpolate_const, hc.interpolate_one hnd, hc.mul_one,
        hc.interpolate_cons_linear_mul hnd, hquotient]

/-- The product of a polynomial with `X ^^^ a`, and a constant added, has one coefficient more. -/
theorem FieldLaws.exists_polynomialAt_linear_mul (a v : Sym) (q : List Sym) :
    ∃ coeffs : List Sym, coeffs.length = q.length + 1 ∧ ∀ y,
      polynomialAt c coeffs y = v ^^^ gfmul c (y ^^^ a) (polynomialAt c q y) := by
  induction q generalizing v with
  | nil =>
    refine ⟨[v], rfl, fun y => ?_⟩
    rw [polynomialAt_singleton, polynomialAt_nil, gfmul_zero_right, xor_zero_sym]
  | cons b q ih =>
    obtain ⟨rest, hlen, hrest⟩ := ih b
    refine ⟨(v ^^^ gfmul c a b) :: rest, by simp [hlen], fun y => ?_⟩
    rw [polynomialAt_cons, polynomialAt_cons, hrest, gfmul_xor_right, gfmul_xor_right,
      hc.left_comm y, gfmul_xor_left c y a b]
    ac_rfl

/-- Newton's construction: values at distinct points are those of a polynomial with no more coefficients
than there are points. -/
theorem FieldLaws.exists_polynomialAt_eq {α : Type} (point value : α → Sym) {l : List α}
    (hnd : (l.map point).Nodup) : ∃ coeffs : List Sym, coeffs.length = l.length ∧
      ∀ v ∈ l, value v = polynomialAt c coeffs (point v) := by
  induction l generalizing value with
  | nil => exact ⟨[], rfl, nofun⟩
  | cons a rest ih =>
    obtain ⟨ha, hrest⟩ := List.nodup_cons.mp hnd
    obtain ⟨q, hqlen, hq⟩ := ih (fun v => gfmul c (value v ^^^ value a)
      (invTable c (point v ^^^ point a))) hrest
    obtain ⟨coeffs, hlen, hcoeffs⟩ := hc.exists_polynomialAt_linear_mul (point a) (value a) q
    refine ⟨coeffs, by rw [hlen, hqlen, List.length_cons], fun v hv => ?_⟩
    rw [hcoeffs]
    rcases List.mem_cons.mp hv with rfl | hv
    · have hzero : point v ^^^ point v = 0 := BitVec.xor_self
      rw [hzero, gfmul_zero_left, xor_zero_sym]
    · have hd : point v ^^^ point a ≠ 0 := xor_ne_zero fun h => ha (h ▸ List.mem_map_of_mem hv)
      rw [← hq v hv, hc.comm, hc.assoc, hc.comm (invTable c _), hc.mul_invTable hd, hc.mul_one,
        BitVec.xor_comm (value v), ← BitVec.xor_assoc, BitVec.xor_self, BitVec.zero_xor]

end Interpolation

end Sys2Proof.Machine

/-! `LAGW` and `INTERP` as commands (R121 to R126): what each delivers or raises, and what follows for the
interpolated vector from the interpolation of polynomials. -/

namespace Sys2Proof.Machine

/-! The interpolated vector (R123). -/

theorem interpolatedAt_congr (c : Constants) (x : Sym) {vs vs' : List (List Sym)} {i : Nat}
    (hpoints : vs.map xCoordinate = vs'.map xCoordinate)
    (hlane : vs.map (·.getD i 0) = vs'.map (·.getD i 0)) :
    interpolatedAt c x vs i = interpolatedAt c x vs' i := by
  have hzip : ∀ (wts : List Sym) (us : List (List Sym)),
      List.zipWith (fun wt v => gfmul c wt (v.getD i 0)) wts us =
        List.zipWith (gfmul c) wts (us.map (·.getD i 0)) := fun wts us =>
    List.zipWith_map_right.symm
  rw [interpolatedAt, interpolatedAt, hzip, hzip, hpoints, hlane]

theorem interpolatedAt_eq_xorAll_map (c : Constants) (x : Sym) {vs : List (List Sym)}
    (hnd : (vs.map xCoordinate).Nodup) (i : Nat) :
    interpolatedAt c x vs i = xorAll (vs.map fun v =>
      gfmul c (weightOf c x (vs.map xCoordinate) (xCoordinate v)) (v.getD i 0)) := by
  rw [interpolatedAt, lagrangeWeights_eq_map_weightOf c x hnd, List.map_map, List.zipWith_map_left,
    List.zipWith_self]
  rfl

section Interpolation

variable {c : Constants} (hc : FieldLaws c)
include hc

theorem FieldLaws.interpolatedAt_perm {vs vs' : List (List Sym)} (h : vs.Perm vs')
    (hnd : (vs.map xCoordinate).Nodup) (x : Sym) (i : Nat) :
    interpolatedAt c x vs i = interpolatedAt c x vs' i := by
  have hpoints : (vs.map xCoordinate).Perm (vs'.map xCoordinate) := h.map _
  rw [interpolatedAt_eq_xorAll_map c x hnd, interpolatedAt_eq_xorAll_map c x (hpoints.nodup hnd),
    hc.weightOf_perm hpoints]
  exact xorAll_perm (h.map _)

/-- Where position `i` of the vectors lies on a polynomial, the interpolated vector holds its value at the
target (R123). -/
theorem FieldLaws.interpolatedAt_of_polynomial {vs : List (List Sym)}
    (hnd : (vs.map xCoordinate).Nodup) {coeffs : List Sym} (hlen : coeffs.length ≤ vs.length) {i : Nat}
    (hvalues : ∀ v ∈ vs, v.getD i 0 = polynomialAt c coeffs (xCoordinate v)) (x : Sym) :
    interpolatedAt c x vs i = polynomialAt c coeffs x := by
  rw [← hc.interpolate_polynomialAt hnd x (by simpa using hlen), interpolatedAt_eq_xorAll_map c x hnd,
    interpolate, List.map_map]
  exact congrArg xorAll (List.map_congr_left fun v hv => by rw [hvalues v hv]; rfl)

/-- A position at which all vectors agree lies on a constant. -/
theorem FieldLaws.interpolatedAt_of_agreed {vs : List (List Sym)} (hnd : (vs.map xCoordinate).Nodup)
    (hlen : 1 ≤ vs.length) {i : Nat} {v : Sym} (hagreed : ∀ u ∈ vs, u.getD i 0 = v) (x : Sym) :
    interpolatedAt c x vs i = v := by
  rw [hc.interpolatedAt_of_polynomial hnd (coeffs := [v]) hlen (fun u hu => ?_) x,
    polynomialAt_singleton]
  rw [hagreed u hu, polynomialAt_singleton]

theorem FieldLaws.polynomialAt_identity (y : Sym) : polynomialAt c [0, 1] y = y := by
  rw [polynomialAt_cons, polynomialAt_singleton, hc.mul_one, BitVec.xor_comm, xor_zero_sym]

/-- The index position lies on the polynomial `X`. -/
theorem FieldLaws.interpolatedAt_idxPos {vs : List (List Sym)} (hnd : (vs.map xCoordinate).Nodup)
    (hlen : 2 ≤ vs.length) (x : Sym) : interpolatedAt c x vs Config.idxPos = x := by
  rw [hc.interpolatedAt_of_polynomial hnd (coeffs := [0, 1]) hlen (fun v _ => ?_) x,
    hc.polynomialAt_identity]
  rw [hc.polynomialAt_identity, xCoordinate]

/-- A vector `u` whose position `i` is the interpolated one at `u`'s own x-coordinate lies on the
polynomial through position `i` of the vectors, so it may take the place of any of them. -/
theorem FieldLaws.interpolatedAt_of_derived {vs vs' : List (List Sym)} {u : List Sym} {i : Nat}
    (hnd : (vs.map xCoordinate).Nodup) (hnd' : (vs'.map xCoordinate).Nodup)
    (hlen : vs'.length = vs.length) (hmem : ∀ v ∈ vs', v = u ∨ v ∈ vs)
    (hu : u.getD i 0 = interpolatedAt c (xCoordinate u) vs i) (x : Sym) :
    interpolatedAt c x vs' i = interpolatedAt c x vs i := by
  obtain ⟨coeffs, hcoeffs, hvalues⟩ := hc.exists_polynomialAt_eq xCoordinate (·.getD i 0) hnd
  have hold := hc.interpolatedAt_of_polynomial hnd hcoeffs.le hvalues
  rw [hold, hc.interpolatedAt_of_polynomial hnd' (hcoeffs.trans hlen.symm).le fun v hv => ?_]
  rcases hmem v hv with rfl | hv
  · rw [hu, hold]
  · exact hvalues v hv

theorem FieldLaws.productOf_eq_zero {ys : List Sym} (h : 0 ∈ ys) : productOf c ys = 0 := by
  induction ys with
  | nil => exact absurd h List.not_mem_nil
  | cons y rest ih =>
    rw [hc.productOf_cons]
    rcases List.mem_cons.mp h with rfl | h
    · exact gfmul_zero_left c _
    · rw [ih h, gfmul_zero_right]

/-- At a target among the points the numerator of every other point has the factor 0 (R121). -/
theorem FieldLaws.weightOf_of_mem {x y : Sym} {xs : List Sym} (hnd : xs.Nodup) (hx : x ∈ xs) :
    weightOf c x xs y = if y = x then 1 else 0 := by
  split
  · next hyx =>
    rw [weightOf, hyx, hc.mul_invTable (hc.productOf_differences_ne_zero hnd.not_mem_erase)]
  · next hyx =>
    have hfactor : 0 ∈ (xs.erase y).map (x ^^^ ·) :=
      List.mem_map.mpr ⟨x, (List.mem_erase_of_ne (Ne.symm hyx)).mpr hx, BitVec.xor_self⟩
    rw [weightOf, hc.productOf_eq_zero hfactor, gfmul_zero_left]

/-- At a target among the points `LN` has the factor 0 (R121). -/
theorem FieldLaws.arrangedWeight_of_mem {x : Sym} {xs : List Sym} (hx : x ∈ xs) (i : Nat) :
    arrangedWeight c x xs i = 0 := by
  have hfactor : 0 ∈ xs.map (x ^^^ ·) := List.mem_map.mpr ⟨x, hx, BitVec.xor_self⟩
  rw [arrangedWeight, lnValue_eq_productOf, hc.productOf_eq_zero hfactor, gfmul_zero_left]

end Interpolation

/-! The vectors of a stream (R37). -/

theorem vectorAt_getElem? (n : Nat) (syms : List Sym) (j : Nat) {i : Nat} (hi : i < n) :
    (vectorAt n syms j)[i]? = syms[j * n + i]? := by
  rw [vectorAt, List.getElem?_take_of_lt hi, List.getElem?_drop]

/-- Position `i` of vector `j` of a stream. -/
theorem vectorAt_getD (n : Nat) (inp : List Byte) (j : Nat) {i : Nat} (hi : i < n) :
    (vectorAt n (inp.map byteToSym) j).getD i 0 = (inp[j * n + i]?.map byteToSym).getD 0 := by
  rw [List.getD_eq_getElem?_getD, vectorAt_getElem? n _ j hi, List.getElem?_map]

theorem interpVectors_length (k : Sym) (inp : List Byte) :
    (interpVectors k inp).length = k.toNat := vectors_length _ _ _

theorem map_interpVectors {α : Type} (k : Sym) (inp : List Byte) (g : List Sym → α) :
    (interpVectors k inp).map g = (List.range k.toNat).map fun j =>
      g (vectorAt (inp.length / k.toNat) (inp.map byteToSym) j) := List.map_map

/-- A lane of the vectors is what the stream holds at that lane's positions. -/
theorem lane_congr {k : Sym} {inp inp' : List Byte} (hlen : inp.length = inp'.length) {i : Nat}
    (hi : i < inp.length / k.toNat)
    (h : ∀ j, j < k.toNat → inp[j * (inp.length / k.toNat) + i]? =
      inp'[j * (inp.length / k.toNat) + i]?) :
    (interpVectors k inp).map (·.getD i 0) = (interpVectors k inp').map (·.getD i 0) := by
  rw [map_interpVectors, map_interpVectors, ← hlen]
  refine List.map_congr_left fun j hj => ?_
  rw [vectorAt_getD _ _ j hi, vectorAt_getD _ _ j hi, h j (List.mem_range.mp hj)]

theorem mem_interpVectors {k : Sym} {inp : List Byte} {v : List Sym} :
    v ∈ interpVectors k inp ↔
      ∃ j < k.toNat, vectorAt (inp.length / k.toNat) (inp.map byteToSym) j = v := by
  simp only [interpVectors, vectors, List.mem_map, List.mem_range]

theorem vectorAt_append_left {n j : Nat} {l : List Sym} (h : (j + 1) * n ≤ l.length) (r : List Sym) :
    vectorAt n (l ++ r) j = vectorAt n l j := by
  rw [Nat.succ_mul] at h
  rw [vectorAt, List.drop_append_of_le_length (by omega), List.take_append_of_le_length (by
    rw [List.length_drop]; omega), vectorAt]

theorem vectorAt_append_right {n m j : Nat} {l : List Sym} (h : l.length = m * n) (hj : m ≤ j)
    (r : List Sym) : vectorAt n (l ++ r) j = vectorAt n r (j - m) := by
  have hle : m * n ≤ j * n := Nat.mul_le_mul_right n hj
  rw [vectorAt, List.drop_append, List.drop_eq_nil_of_le (h ▸ hle), List.nil_append, vectorAt, h,
    Nat.sub_mul]

theorem vectorAt_take {n m j : Nat} (hj : j < m) (syms : List Sym) :
    vectorAt n (syms.take (m * n)) j = vectorAt n syms j := by
  have hle : (j + 1) * n ≤ m * n := Nat.mul_le_mul_right n hj
  rw [Nat.succ_mul] at hle
  rw [vectorAt, List.drop_take, List.take_take, Nat.min_eq_left (by omega), vectorAt]

theorem vectorAt_drop (n m j : Nat) (syms : List Sym) :
    vectorAt n (syms.drop (m * n)) j = vectorAt n syms (m + j) := by
  rw [vectorAt, List.drop_drop, ← Nat.add_mul, vectorAt]

/-- One vector's place taken by another of its length: the other vectors stay. -/
theorem vectorAt_replace {n m : Nat} {syms v : List Sym} (hv : v.length = n)
    (hm : (m + 1) * n ≤ syms.length) (j : Nat) :
    vectorAt n (syms.take (m * n) ++ v ++ syms.drop ((m + 1) * n)) j =
      if j = m then v else vectorAt n syms j := by
  have hbefore : (syms.take (m * n)).length = m * n := by
    rw [Nat.succ_mul] at hm
    rw [List.length_take]
    omega
  have hthrough : (syms.take (m * n) ++ v).length = (m + 1) * n := by
    rw [List.length_append, hbefore, hv, Nat.succ_mul]
  rcases Nat.lt_trichotomy j m with hj | rfl | hj
  · rw [vectorAt_append_left (hthrough ▸ Nat.mul_le_mul_right n (by omega)),
      vectorAt_append_left ((Nat.mul_le_mul_right n hj).trans_eq hbefore.symm), vectorAt_take hj,
      if_neg hj.ne]
  · rw [vectorAt_append_left hthrough.ge, vectorAt_append_right hbefore le_rfl, if_pos rfl,
      vectorAt, Nat.sub_self, Nat.zero_mul, List.drop_zero, List.take_of_length_le hv.le]
  · rw [vectorAt_append_right hthrough hj, vectorAt_drop, Nat.add_sub_cancel' hj, if_neg hj.ne']

/-! The checks (R125). -/

theorem ite_some_eq_none_iff {p : Prop} [Decidable p] {f : BlockFault} {o : Option BlockFault} :
    (if p then some f else o) = none ↔ ¬ p ∧ o = none := by
  by_cases hp : p
  · simp [hp]
  · simp [hp]

theorem interpolationFault_eq_none_iff {badFrame : Prop} [Decidable badFrame] {inp : List Byte} {x : Sym}
    {xs : List Sym} : interpolationFault badFrame inp x xs = none ↔
      ¬ badFrame ∧ allSymbols inp ∧ xs.Nodup ∧ x ∉ xs := by
  simp only [interpolationFault, ite_some_eq_none_iff, not_not, and_true]

/-- What `INTERP` requires to complete (R125). -/
structure InterpChecks (k x : Sym) (inp : List Byte) : Prop where
  frame : interpFrame k inp = true
  symbols : allSymbols inp
  distinct : ((interpVectors k inp).map xCoordinate).Nodup
  absent : x ∉ (interpVectors k inp).map xCoordinate

theorem interpChecks_iff {k x : Sym} {inp : List Byte} :
    reportedFault (.interp k x) inp = none ↔ InterpChecks k x inp := by
  rw [reportedFault_interp, interpolationFault_eq_none_iff, Bool.not_eq_false]
  exact ⟨fun ⟨hf, hr, hnd, hx⟩ => ⟨hf, hr, hnd, hx⟩, fun ⟨hf, hr, hnd, hx⟩ => ⟨hf, hr, hnd, hx⟩⟩

theorem reportedFault_of_exec_ok {i : Instr} {s t : State} (h : exec i s = .next t) (hok : t.st = .ok) :
    reportedFault i s.inp = none := by
  cases hreport : reportedFault i s.inp with
  | none => rfl
  | some f =>
    obtain rfl := Host.Outcome.next.inj ((exec_of_fault hreport).symm.trans h)
    exact Status.noConfusion hok

theorem interpChecks_of_exec_ok {k x : Sym} {s t : State} (h : exec (.interp k x) s = .next t)
    (hok : t.st = .ok) : InterpChecks k x s.inp :=
  interpChecks_iff.mp (reportedFault_of_exec_ok h hok)

/-- A completed `INTERP` delivers the interpolated vector, position by position. -/
theorem out_getElem?_of_interp_ok {k x : Sym} {s t : State} (h : exec (.interp k x) s = .next t)
    (hok : t.st = .ok) {i : Nat} (hi : i < s.inp.length / k.toNat) :
    t.out[i]? = some (symToByte (interpolatedAt Config.constants x (interpVectors k s.inp) i)) := by
  simp [out_of_exec_ok hok h, outputOf, hi]

theorem InterpChecks.one_le {k x : Sym} {inp : List Byte} (h : InterpChecks k x inp) : 1 ≤ k.toNat := by
  obtain ⟨hk, -⟩ := (interpFrame_iff k inp).mp h.frame
  exact hk

theorem InterpChecks.idxPos_lt {k x : Sym} {inp : List Byte} (h : InterpChecks k x inp) :
    Config.idxPos < inp.length / k.toNat := by
  obtain ⟨-, -, -, hn⟩ := (interpFrame_iff k inp).mp h.frame
  exact hn

theorem InterpChecks.length_eq {k x : Sym} {inp : List Byte} (h : InterpChecks k x inp) :
    k.toNat * (inp.length / k.toNat) = inp.length := by
  obtain ⟨-, -, hmod, -⟩ := (interpFrame_iff k inp).mp h.frame
  exact Nat.mul_div_cancel' (Nat.dvd_of_mod_eq_zero hmod)

/-! The statements. -/

/-- Settles O46: numerator and denominator carry one common factor more in the arrangement, which cancels
(`arrangedWeight_eq_lagrangeWeight`). -/
theorem arrangementGivesClosedForm : Obligations.ArrangementGivesClosedForm := by
  intro c hc x xs w hnd hx
  rw [weightsRun_wt, arrangedWeights_eq_lagrangeWeights hc.field hnd hx]

/-- Settles O47: the target's own difference is a factor 0 of every numerator but its own, and of `LN`. -/
theorem formsDifferAtPresentTarget : Obligations.FormsDifferAtPresentTarget := by
  intro x xs w hnd hx
  constructor
  · rw [lagrangeWeights_eq_map_weightOf _ x hnd]
    exact List.map_congr_left fun y _ => fieldLaws_constants.weightOf_of_mem hnd hx
  · rw [weightsRun_wt, List.map_congr_left fun i _ => fieldLaws_constants.arrangedWeight_of_mem hx i,
      List.map_const', List.length_range]

/-- Settles O48: the weights interpolate the constant 1. -/
theorem weightsXorToOne : Obligations.WeightsXorToOne := by
  intro x xs hne hnd _
  have hone := fieldLaws_constants.interpolate_polynomialAt hnd x (coeffs := [1])
    (List.length_pos_iff.mpr hne)
  simpa only [interpolate, polynomialAt_singleton, fieldLaws_constants.mul_one,
    ← lagrangeWeights_eq_map_weightOf _ x hnd] using hone

/-- Settles O45: each clause is one branch of the fault that is reported for `LAGW`. -/
theorem lagwDeliversWeights : Obligations.LagwDeliversWeights := by
  intro x s
  have hreport := reportedFault_lagw x s.inp
  rw [interpolationFault] at hreport
  refine ⟨by simp [encode, wordOf], fun hemp => ⟨_, exec_of_fault (hreport.trans ?_), rfl⟩,
    fun hne hsym => ⟨_, exec_of_fault (hreport.trans ?_), rfl⟩,
    fun hsym hnd => ⟨_, exec_of_fault (hreport.trans ?_), rfl⟩,
    fun hsym hnd hx => ⟨_, exec_of_fault (hreport.trans ?_), rfl⟩,
    fun hne hsym hnd hx => ⟨_, exec_of_no_fault (hreport.trans ?_), rfl⟩⟩
  · rw [if_pos hemp]
  · rw [if_neg hne, if_pos hsym]
  · have hne : s.inp ≠ [] := fun hemp => hnd (hemp ▸ List.nodup_nil)
    rw [if_neg hne, if_neg (not_not.mpr hsym), if_pos hnd]
  · have hne : s.inp ≠ [] := fun hemp => List.not_mem_nil (hemp ▸ hx)
    rw [if_neg hne, if_neg (not_not.mpr hsym), if_neg (not_not.mpr hnd), if_pos hx]
  · rw [if_neg hne, if_neg (not_not.mpr hsym), if_neg (not_not.mpr hnd), if_neg hx]

/-- Settles O49: each clause is one branch of the fault that is reported for `INTERP`. -/
theorem interpDeliversVector : Obligations.InterpDeliversVector := by
  intro k x s
  have hreport := reportedFault_interp k x s.inp
  rw [interpolationFault] at hreport
  refine ⟨rfl, fun hbad => ⟨_, exec_of_fault (hreport.trans (if_pos ?_)), rfl⟩, fun hk hmod hn => ?_⟩
  · rw [← badFrameApplies_interp k x, badFrameApplies, decide_eq_true_eq]
    exact hbad
  have hframe : ¬ interpFrame k s.inp = false := by
    rw [Bool.not_eq_false, interpFrame_iff]
    have hpos : 0 < s.inp.length := Nat.pos_of_div_pos (Nat.lt_of_lt_of_le (by decide) hn)
    exact ⟨hk, hpos, hmod, hn⟩
  rw [if_neg hframe] at hreport
  refine ⟨fun hsym => ⟨_, exec_of_fault (hreport.trans (if_pos hsym)), rfl⟩,
    fun hsym hnd => ⟨_, exec_of_fault (hreport.trans ?_), rfl⟩,
    fun hsym hnd hx => ⟨_, exec_of_fault (hreport.trans ?_), rfl⟩,
    fun hsym hnd hx => ⟨_, exec_of_no_fault (hreport.trans ?_), rfl⟩⟩
  · rw [if_neg (not_not.mpr hsym), if_pos hnd]
  · rw [if_neg (not_not.mpr hsym), if_neg (not_not.mpr hnd), if_pos hx]
  · rw [if_neg (not_not.mpr hsym), if_neg (not_not.mpr hnd), if_neg hx]

/-- Settles O50: division by `X ^^^ a` for a point `a` takes the polynomial and the points down together
(`FieldLaws.interpolate_polynomialAt`). -/
theorem polynomialIsRecovered : Obligations.PolynomialIsRecovered := by
  intro k x s t h hok i coeffs hi hlen hvalues
  have hchecks := interpChecks_of_exec_ok h hok
  rw [out_getElem?_of_interp_ok h hok hi, fieldLaws_constants.interpolatedAt_of_polynomial
    hchecks.distinct (by rwa [interpVectors_length]) hvalues]

theorem interpVectors_one (inp : List Byte) : interpVectors 1 inp = [inp.map byteToSym] := by
  simp [interpVectors, vectors, vectorAt]

theorem interpChecks_one {x : Sym} {inp : List Byte} (hlen : 6 ≤ inp.length) (hsym : allSymbols inp)
    (hx : inp[5]? ≠ some (symToByte x)) : InterpChecks 1 x inp where
  frame := by
    have hdiv : inp.length / (1 : Sym).toNat = inp.length := Nat.div_one _
    exact (interpFrame_iff 1 inp).mpr ⟨le_rfl, by omega, Nat.mod_one _, by rwa [hdiv]⟩
  symbols := hsym
  distinct := by
    rw [interpVectors_one]
    exact List.nodup_singleton _
  absent := by
    have hidx : 5 < inp.length := hlen
    have hpoint : xCoordinate (inp.map byteToSym) = byteToSym inp[5] := by
      simp [xCoordinate, Config.idxPos, hidx]
    rw [interpVectors_one, List.map_singleton, hpoint, List.mem_singleton]
    rintro rfl
    exact hx (by rw [symToByte_byteToSym (hsym _ (List.getElem_mem hidx)),
      List.getElem?_eq_getElem hidx])

/-- Settles O51: the one vector agrees with itself at every position. -/
theorem singleVectorComesBack : Obligations.SingleVectorComesBack := by
  intro x s hlen hsym hx
  have hchecks := interpChecks_one hlen hsym hx
  have hdiv : s.inp.length / (1 : Sym).toNat = s.inp.length := Nat.div_one _
  have hlane : ∀ i, interpolatedAt Config.constants x (interpVectors 1 s.inp) i =
      (s.inp.map byteToSym).getD i 0 := fun i =>
    fieldLaws_constants.interpolatedAt_of_agreed hchecks.distinct (interpVectors_length 1 s.inp).ge
      (fun u hu => by rw [interpVectors_one, List.mem_singleton] at hu; rw [hu]) x
  have hout : outputOf Config.constants (.interp 1 x) s.inp = s.inp := by
    rw [outputOf, hdiv]
    refine List.ext_getElem (by simp) fun i _ hi => ?_
    rw [List.getElem_map, List.getElem_range, hlane, List.getD_eq_getElem _ _ (by simpa using hi),
      List.getElem_map, symToByte_byteToSym (hsym _ (List.getElem_mem hi))]
  rw [exec_of_no_fault (interpChecks_iff.mpr hchecks), hout]

/-- Settles O52: at such a position the vectors lie on a constant. -/
theorem agreedPositionsPassThrough : Obligations.AgreedPositionsPassThrough := by
  intro k x s t h hok i v hi hagreed
  have hchecks := interpChecks_of_exec_ok h hok
  have hv : v.toNat < 32 := hchecks.symbols v (List.mem_of_getElem? (hagreed 0 hchecks.one_le))
  have hvectors : ∀ u ∈ interpVectors k s.inp, u.getD i 0 = byteToSym v := by
    intro u hu
    obtain ⟨j, hj, rfl⟩ := mem_interpVectors.mp hu
    rw [vectorAt_getD _ _ j hi, hagreed j hj]
    rfl
  rw [out_getElem?_of_interp_ok h hok hi, fieldLaws_constants.interpolatedAt_of_agreed
    hchecks.distinct (by rw [interpVectors_length]; exact hchecks.one_le) hvectors,
    symToByte_byteToSym hv]

/-- Settles O53: the x-coordinates lie on the polynomial `X`. -/
theorem indexPositionIsTarget : Obligations.IndexPositionIsTarget := by
  intro k x s t hk h hok
  have hchecks := interpChecks_of_exec_ok h hok
  have hout := out_getElem?_of_interp_ok h hok hchecks.idxPos_lt
  rwa [fieldLaws_constants.interpolatedAt_idxPos hchecks.distinct
    (by rwa [interpVectors_length])] at hout

/-- Settles O54: the weights are made of lane 5 and the target, the sum of the weights and lane `i`. -/
theorem lanesAreIndependent : Obligations.LanesAreIndependent := by
  intro k x s s' t t' i hlen h hok h' hok' hi hagree
  have hchecks := interpChecks_of_exec_ok h hok
  rw [out_getElem?_of_interp_ok h hok hi, out_getElem?_of_interp_ok h' hok' (hlen ▸ hi),
    interpolatedAt_congr _ x (lane_congr hlen hchecks.idxPos_lt fun j hj => (hagree j hj).1)
      (lane_congr hlen hi fun j hj => (hagree j hj).2)]

theorem reportedFault_interp_of_perm {k : Sym} {inp inp' : List Byte} (hlen : inp.length = inp'.length)
    (hsym : allSymbols inp) (hsym' : allSymbols inp')
    (h : (interpVectors k inp).Perm (interpVectors k inp')) (x : Sym) :
    reportedFault (.interp k x) inp = reportedFault (.interp k x) inp' := by
  have hframe : interpFrame k inp = interpFrame k inp' := by rw [interpFrame, interpFrame, hlen]
  have hpoints := h.map xCoordinate
  rw [reportedFault_interp, reportedFault_interp, interpolationFault, interpolationFault,
    if_neg (not_not.mpr hsym), if_neg (not_not.mpr hsym')]
  simp only [hframe, hpoints.nodup_iff, hpoints.mem_iff]

theorem outputOf_interp_of_perm {k x : Sym} {inp inp' : List Byte} (hlen : inp.length = inp'.length)
    (hchecks : InterpChecks k x inp) (h : (interpVectors k inp).Perm (interpVectors k inp')) :
    outputOf Config.constants (.interp k x) inp = outputOf Config.constants (.interp k x) inp' := by
  rw [outputOf, outputOf, ← hlen]
  exact List.map_congr_left fun i _ =>
    congrArg symToByte (fieldLaws_constants.interpolatedAt_perm h hchecks.distinct x i)

theorem answerOf_interp_of_perm {k x : Sym} {inp inp' : List Byte} (hlen : inp.length = inp'.length)
    (hsym : allSymbols inp) (hsym' : allSymbols inp')
    (h : (interpVectors k inp).Perm (interpVectors k inp')) :
    answerOf Config.constants (.interp k x) inp = answerOf Config.constants (.interp k x) inp' := by
  rw [answerOf, answerOf, ← reportedFault_interp_of_perm hlen hsym hsym' h x]
  cases hreport : reportedFault (.interp k x) inp with
  | none => simp only [outputOf_interp_of_perm hlen (interpChecks_iff.mp hreport) h]
  | some f => rfl

/-- Settles O55: the checks and the sum over the vectors do not depend on their order. -/
theorem vectorOrderImmaterial : Obligations.VectorOrderImmaterial := by
  intro k x s s' t t' hlen hsym hsym' hperm h h'
  obtain rfl := exec_eq_next_iff.mp h
  obtain rfl := exec_eq_next_iff.mp h'
  rw [answerOf_interp_of_perm hlen hsym hsym' hperm]
  exact ⟨rfl, rfl⟩

/-! A vector replaced by a derived one (R168). -/

theorem length_replaceVector {k : Sym} {m : Nat} {v inp : List Byte}
    (hv : v.length = inp.length / k.toNat) (hm : (m + 1) * (inp.length / k.toNat) ≤ inp.length) :
    (replaceVector k m v inp).length = inp.length := by
  rw [Nat.succ_mul] at hm
  simp only [replaceVector, List.length_append, List.length_take, List.length_drop, hv, Nat.succ_mul]
  omega

/-- The vectors after a replacement are the new one and old ones. -/
theorem eq_or_mem_of_mem_interpVectors_replaceVector {k : Sym} {m : Nat} {v inp : List Byte}
    {w : List Sym} (hv : v.length = inp.length / k.toNat)
    (hm : (m + 1) * (inp.length / k.toNat) ≤ inp.length)
    (hw : w ∈ interpVectors k (replaceVector k m v inp)) :
    w = v.map byteToSym ∨ w ∈ interpVectors k inp := by
  obtain ⟨j, hj, rfl⟩ := mem_interpVectors.mp hw
  rw [length_replaceVector hv hm, replaceVector, List.map_append, List.map_append, List.map_take,
    List.map_drop, vectorAt_replace (by simpa using hv) (by simpa using hm)]
  split
  · exact .inl rfl
  · exact .inr (mem_interpVectors.mpr ⟨j, hj, rfl⟩)

/-- The derived vector, as symbols, holds the interpolated values. -/
theorem getD_out_of_interp_ok {k x : Sym} {s t : State} (h : exec (.interp k x) s = .next t)
    (hok : t.st = .ok) {i : Nat} (hi : i < s.inp.length / k.toNat) :
    (t.out.map byteToSym).getD i 0 =
      interpolatedAt Config.constants x (interpVectors k s.inp) i := by
  rw [List.getD_eq_getElem?_getD, List.getElem?_map, out_getElem?_of_interp_ok h hok hi,
    Option.map_some, byteToSym_symToByte, Option.getD_some]

/-- Settles O56: the derived vector lies, position by position, on the polynomials through the others, its
x-coordinate being the target it was derived at. -/
theorem derivedShareRecombines : Obligations.DerivedShareRecombines := by
  intro k d x m s s' t u v hk hm ht htok hu huok hinp hv hvok
  have hchecks := interpChecks_of_exec_ok hu huok
  have hchecks' := interpChecks_of_exec_ok hv hvok
  have hout : t.out.length = s.inp.length / k.toNat := by
    rw [out_of_exec_ok htok ht, outputOf, List.length_map, List.length_range]
  have hend : (m + 1) * (s.inp.length / k.toNat) ≤ s.inp.length :=
    (Nat.mul_le_mul_right _ hm).trans hchecks.length_eq.le
  have hlen : s'.inp.length = s.inp.length := hinp ▸ length_replaceVector hout hend
  have hpoint : xCoordinate (t.out.map byteToSym) = d := by
    rw [xCoordinate, getD_out_of_interp_ok ht htok hchecks.idxPos_lt]
    exact fieldLaws_constants.interpolatedAt_idxPos hchecks.distinct (by rwa [interpVectors_length]) d
  rw [out_of_exec_ok huok hu, out_of_exec_ok hvok hv, outputOf, outputOf, hlen]
  refine List.map_congr_left fun i hi => congrArg symToByte ?_
  refine (fieldLaws_constants.interpolatedAt_of_derived hchecks.distinct hchecks'.distinct ?_
    (fun w hw => eq_or_mem_of_mem_interpVectors_replaceVector hout hend (hinp ▸ hw)) ?_ x).symm
  · rw [interpVectors_length, interpVectors_length]
  · rw [hpoint, getD_out_of_interp_ok ht htok (List.mem_range.mp hi)]

end Sys2Proof.Machine

/-! The codes of `ST` (R170), completion where no fault applies (R170, R171), and the order in which faults
are reported (R172). -/

namespace Sys2Proof.Machine

/-! The codes (R170). -/

theorem BlockFault.code_toNat_lt (f : BlockFault) : f.code.toNat < 8 := by
  cases f <;> decide

theorem Status.code_toNat_lt (st : Status) : st.code.toNat < 8 := by
  cases st with
  | ok => decide
  | fault f => exact f.code_toNat_lt

/-- Settles O22: the codes are those of the definition. -/
theorem statusCodes : Obligations.StatusCodes :=
  ⟨rfl, rfl, rfl, rfl, rfl, rfl, rfl, rfl, Status.code_toNat_lt⟩

/-! The reported fault is the first that applies (R172). -/

/-- The faults of a legal command, in the order in which `reportedFault` looks for them. -/
def faultOrder : List BlockFault :=
  [.badFrame, .valueRange, .incompleteGroup, .inverseOfZero, .duplicateShareIndex, .targetIndexPresent]

theorem reportedFault_eq_find? (i : Instr) (inp : List Byte) :
    reportedFault i inp = faultOrder.find? fun f => faultApplies f i inp := rfl

theorem faultOrder_pairwise_rank : faultOrder.Pairwise fun f g => f.rank ≤ g.rank := by decide

/-- `IllegalCommand` is a matter of the word, so every fault that applies is looked for (R53). -/
theorem mem_faultOrder_of_applies {f : BlockFault} {i : Instr} {inp : List Byte}
    (h : faultApplies f i inp = true) : f ∈ faultOrder := by
  cases f with
  | illegalCommand => exact absurd h Bool.false_ne_true
  | valueRange | incompleteGroup | badFrame | duplicateShareIndex | targetIndexPresent
  | inverseOfZero => decide

theorem reportedFault_eq_none_iff {i : Instr} {inp : List Byte} :
    reportedFault i inp = none ↔ ∀ f, faultApplies f i inp = false := by
  rw [reportedFault_eq_find?, List.find?_eq_none]
  constructor
  · intro h f
    rw [← Bool.not_eq_true]
    exact fun happlies => h f (mem_faultOrder_of_applies happlies) happlies
  · exact fun h f _ => ne_true_of_eq_false (h f)

theorem faultApplies_of_reportedFault {i : Instr} {inp : List Byte} {g : BlockFault}
    (h : reportedFault i inp = some g) : faultApplies g i inp = true := by
  rw [reportedFault_eq_find?] at h
  exact List.find?_some (p := fun f => faultApplies f i inp) h

/-- A fault that applies stands in the order at or after the reported one, so its rank is no less. -/
theorem reportedFault_rank_le {i : Instr} {inp : List Byte} {f g : BlockFault}
    (h : reportedFault i inp = some g) (hf : faultApplies f i inp = true) : g.rank ≤ f.rank := by
  rw [reportedFault_eq_find?] at h
  obtain ⟨-, before, after, hsplit, hbefore⟩ := List.find?_eq_some_iff_append.mp h
  have hsorted := faultOrder_pairwise_rank
  have hmem := mem_faultOrder_of_applies hf
  rw [hsplit] at hsorted hmem
  obtain ⟨-, htail, -⟩ := List.pairwise_append.mp hsorted
  obtain ⟨hafter, -⟩ := List.pairwise_cons.mp htail
  rcases List.mem_append.mp hmem with hpre | hpost
  · have hnot := hbefore f hpre
    rw [hf] at hnot
    exact absurd hnot Bool.false_ne_true
  · rcases List.mem_cons.mp hpost with rfl | hpost
    · exact le_rfl
    · exact hafter f hpost

/-! The statements. -/

/-- Settles O12: where no fault applies none is reported, and the command delivers its output. -/
theorem completesWhereNoFaultApplies : Obligations.CompletesWhereNoFaultApplies := by
  intro i s h
  exact ⟨_, exec_of_no_fault (reportedFault_eq_none_iff.mpr h)⟩

/-- Settles O13: an illegal word raises `IllegalCommand`; a legal command to which a fault applies raises
the reported one, which has the least rank (`reportedFault_rank_le`). -/
theorem firstFaultIsReported : Obligations.FirstFaultIsReported := by
  intro s hissued
  refine ⟨fun hillegal => ⟨_, illegalWordFaults s hissued hillegal, rfl⟩, ?_⟩
  rintro i hdecode ⟨f, hf⟩
  cases hreport : reportedFault i s.inp with
  | none =>
    have hnone := reportedFault_eq_none_iff.mp hreport f
    exact absurd hf (ne_true_of_eq_false hnone)
  | some g =>
    have hstep : step s = .next (raise g s) :=
      (stepRunsDecoded s i hissued hdecode).trans (exec_of_fault hreport)
    exact ⟨g, faultApplies_of_reportedFault hreport,
      fun _ happlies => reportedFault_rank_le hreport happlies, _, hstep, rfl⟩

end Sys2Proof.Machine

/-! The block with no transaction issued, and the reset state (R190). -/

namespace Sys2Proof.Machine

/-- Settles O9: the step of a block with none issued is its resting branch. -/
theorem unissuedBlockRests : Obligations.UnissuedBlockRests := fun _ => step_of_not_issued

/-- The invariant of `StepKeepsAnswered` speaks of phase complete alone. -/
theorem answered_of_idle {s : State} (hidle : s.phase = .idle) : s.answered := by
  intro hcomplete
  exact Phase.noConfusion (hidle.symm.trans hcomplete)

/-- Settles O20: at reset the block is idle. -/
theorem resetAnswered : Obligations.ResetAnswered := by
  obtain ⟨hidle, -⟩ := resetIsIdle
  exact answered_of_idle hidle

end Sys2Proof.Machine

/-! The values that stand in `ST` and `OUT` at reset (log 1). -/

namespace Sys2Proof.Machine

/-- The invariant of `StepKeepsResultSound` speaks of a status other than OK alone. -/
theorem resultSound_of_st_ok {s : State} (hok : s.st = .ok) : s.resultSound :=
  fun hfault => absurd hok hfault

theorem reset_st : State.reset.st = .ok := rfl

/-- Settles O18: the status that log 1 chooses for reset is OK. -/
theorem resetResultSound : Obligations.ResetResultSound := resultSound_of_st_ok reset_st

end Sys2Proof.Machine
